-- ==== Sys2Proof/Word.lean ====
section
/-! DEFINITION. The kinds of value the block handles (00_scope.md R8): bits, bit sequences, the 16-bit command word. -/

namespace Sys2Proof

/-- A bit, "a value in 0 and 1" (R8): `true` is 1. No other symbol can be stored (R50). -/
abbrev Bit := Bool

/-- A bit sequence, position 0 first: leftmost in writing and most significant in every integer reading (R9).
Its length is any natural number, zero included (R8). -/
abbrev Bits := List Bit

/-- The command word `CMD`, 16 bits, bit 15 most significant (30_encoding.md R53). -/
abbrev CommandWord := BitVec 16

/-- The status code held in `ST`, 2 bits (10_state.md R18). -/
abbrev StatusCode := BitVec 2

/-- A character of the text codec outside the block (60_exceptions.md R149). -/
abbrev Byte := BitVec 8

end Sys2Proof
end

