-- ==== Sys2Proof/Config.lean ====
section
/-! DEFINITION. What is fixed when an instance is created: the configuration `CFG` (10_state.md R11) and the two
parameters of the implementation, `MAX_BITS` and `WIDTH_POLICY` (00_scope.md section 4), with the values the reset
state takes. Claims quantify over all of them: they are fields of the state that no operation writes. -/

namespace Sys2Proof

/-- Treatment of positive widths other than 8, 16 and 32 (42_checksum.md R101). -/
inductive WidthPolicy where
  | generic
  | strict
  deriving DecidableEq, Repr

/-- The configuration `CFG` of an instance (R11). -/
structure Cfg where
  poly : Bits
  defw : Int
  deriving DecidableEq, Repr

/-- The parameters of the implementation: the capacity `MAX_BITS` of every bit buffer, `none` for unbounded
(R7), and `WIDTH_POLICY` (R101). -/
structure Params where
  maxBits : Option Nat
  widthPolicy : WidthPolicy
  deriving DecidableEq, Repr

/-- PRESUMED, unsafe (log 2): the generator of 93_implementation_defined.md G1, 33 bits, 0x104C11DB7. The spec gives
the source's instance 33 bits and no value (R5, D3); no statement uses this one. -/
def Config.poly : Bits :=
  [true,
   false, false, false, false, false, true, false, false,
   true, true, false, false, false, false, false, true,
   false, false, false, true, true, true, false, true,
   true, false, true, true, false, true, true, true]

/-- The default width of the source's instance (R6, R26). -/
def Config.defw : Int := 16

/-- The spec's default policy (R101). -/
def Config.widthPolicy : WidthPolicy := .generic

/-- DESIGN CHOICE, unsafe (log 3): buffers without a bound, which R7 allows. -/
def Config.maxBits : Option Nat := none

end Sys2Proof
end

