-- ==== Sys2Proof/Syntax.lean ====
section
/-! DEFINITION. The operations of the block, one constructor per row of the opcode table (30_encoding.md R56, R57). -/

namespace Sys2Proof

/-- A decoded command word. The argument of a checksum operation is its width field `WF`, an unsigned number
(R54); the constructors ending in `D` are the default-width forms `.D` (R55). The input sequence is not part of the
command: it is in the registers `IN` and `IN_LEN` (R53). -/
inductive Instr where
  | addpar
  | chkpar
  | divrem
  | gencrc
  | chkcrc
  | calcsum (wf : Nat)
  | calcsumD
  | addsum (wf : Nat)
  | addsumD
  | versum (wf : Nat)
  | versumD
  | versums (wf : Nat)
  | versumsD
  deriving DecidableEq, Repr

end Sys2Proof
end

