-- ==== Sys2Proof/WellFormed.lean ====
section
/-! DEFINITION. Which instructions a command word can spell: the width field is an unsigned number 0 to 255 (R53, R54). -/

namespace Sys2Proof

/-- A width field fits the eight bits `CMD[7:0]` (R54). -/
abbrev WidthFieldFits (wf : Nat) : Bool := decide (wf < 256)

/-- An instruction some command word spells. The nine rows without an operand are always well formed. -/
def WellFormed : Instr → Bool
  | .addpar | .chkpar | .divrem | .gencrc | .chkcrc => true
  | .calcsum wf | .addsum wf | .versum wf | .versums wf => WidthFieldFits wf
  | .calcsumD | .addsumD | .versumD | .versumsD => true

end Sys2Proof
end

