-- ==== Sys2Proof/Decode.lean ====
section
/-! DEFINITION. The command word: fields (R53), decoding by the table of patterns (R57, R58), the reserved words by name
(R60), the encoder, and the assembler's operations with an omitted width (R61, R62). -/

namespace Sys2Proof

/-- Why a command word is reserved: the four groups of R60. -/
inductive Reserved where
  | operationCode   -- `OP` from 1001 to 1111
  | zeroBits        -- `Z` is not 000
  | strayOperand    -- an operation without operand, `DW` or `WF` not zero
  | strayWidth      -- a default-width form with `WF` not zero
  deriving DecidableEq, Repr

/-- `OP`, `CMD[15:12]` (R53). -/
def opField (w : CommandWord) : Nat := (w.extractLsb' 12 4).toNat

/-- `DW`, `CMD[11]` (R53). -/
def dwField (w : CommandWord) : Bool := w.getLsbD 11

/-- `Z`, `CMD[10:8]` (R53). -/
def zField (w : CommandWord) : Nat := (w.extractLsb' 8 3).toNat

/-- `WF`, `CMD[7:0]` read as an unsigned number (R53, R54). -/
def wfField (w : CommandWord) : Nat := (w.extractLsb' 0 8).toNat

/-- One row of the table of exact patterns (R57); `instr` is the row's operation with width field 0. -/
structure Row where
  mask : CommandWord
  pattern : CommandWord
  instr : Instr
  deriving DecidableEq, Repr

/-- The table of R57, in its order. -/
def rows : List Row :=
  [⟨0xFFFF#16, 0x0000#16, .addpar⟩,
   ⟨0xFFFF#16, 0x1000#16, .chkpar⟩,
   ⟨0xFFFF#16, 0x2000#16, .divrem⟩,
   ⟨0xFFFF#16, 0x3000#16, .gencrc⟩,
   ⟨0xFFFF#16, 0x4000#16, .chkcrc⟩,
   ⟨0xFF00#16, 0x5000#16, .calcsum 0⟩,
   ⟨0xFFFF#16, 0x5800#16, .calcsumD⟩,
   ⟨0xFF00#16, 0x6000#16, .addsum 0⟩,
   ⟨0xFFFF#16, 0x6800#16, .addsumD⟩,
   ⟨0xFF00#16, 0x7000#16, .versum 0⟩,
   ⟨0xFFFF#16, 0x7800#16, .versumD⟩,
   ⟨0xFF00#16, 0x8000#16, .versums 0⟩,
   ⟨0xFFFF#16, 0x8800#16, .versumsD⟩]

/-- A command word selects a row iff `(CMD and mask) = match` (R57). -/
def rowMatches (w : CommandWord) (r : Row) : Bool := w &&& r.mask == r.pattern

/-- Put the width field into the operations that have one (R54). -/
def withWidthField (wf : Nat) : Instr → Instr
  | .calcsum _ => .calcsum wf
  | .addsum _ => .addsum wf
  | .versum _ => .versum wf
  | .versums _ => .versums wf
  | .addpar => .addpar
  | .chkpar => .chkpar
  | .divrem => .divrem
  | .gencrc => .gencrc
  | .chkcrc => .chkcrc
  | .calcsumD => .calcsumD
  | .addsumD => .addsumD
  | .versumD => .versumD
  | .versumsD => .versumsD

/-- The group of R60 a word that matches no row belongs to. Where two groups hold, the first of R60's order names it:
DESIGN CHOICE, safe (log 10). -/
def reservedReason (w : CommandWord) : Reserved :=
  if opField w > 8 then .operationCode
  else if zField w ≠ 0 then .zeroBits
  else if opField w ≤ 4 then .strayOperand
  else .strayWidth

/-- Decoding, total: the one row that matches, or the word is reserved (R58, R60). A width field of 0 or above 32
decodes like any other (R59). -/
def decode (w : CommandWord) : Except Reserved Instr :=
  match rows.find? (rowMatches w) with
  | some r => .ok (withWidthField (wfField w) r.instr)
  | none => .error (reservedReason w)

/-- A pattern with the width field in `CMD[7:0]` (R57). Of a width above 255, which no command word spells and whose
assembling R61 leaves open, the low eight bits are kept. DESIGN CHOICE, unsafe (log 21). -/
def withWidthBits (pattern : CommandWord) (wf : Nat) : CommandWord :=
  pattern ||| (BitVec.ofNat 8 wf).setWidth 16

/-- The command word of an instruction (R57). -/
def encode : Instr → CommandWord
  | .addpar => 0x0000#16
  | .chkpar => 0x1000#16
  | .divrem => 0x2000#16
  | .gencrc => 0x3000#16
  | .chkcrc => 0x4000#16
  | .calcsum wf => withWidthBits 0x5000#16 wf
  | .calcsumD => 0x5800#16
  | .addsum wf => withWidthBits 0x6000#16 wf
  | .addsumD => 0x6800#16
  | .versum wf => withWidthBits 0x7000#16 wf
  | .versumD => 0x7800#16
  | .versums wf => withWidthBits 0x8000#16 wf
  | .versumsD => 0x8800#16

/-- The command word whose opcode-table bits are `w`: the table numbers bit 0 least significant, and a row is one word
of 16 bits, so only the lowest 16 bits are kept (log 17). -/
def tableWord (nbits w : Nat) : CommandWord := BitVec.ofNat 16 (w % 2 ^ nbits)

/-- What the decoder reads from an opcode-table word. -/
def decodeTableWord (nbits w : Nat) : Option Instr :=
  match decode (tableWord nbits w) with
  | .ok i => some i
  | .error _ => none

/-- An operation as the assembler writes it (R61): a checksum operation with its width, or without one (R62). -/
inductive Asm where
  | addpar
  | chkpar
  | divrem
  | gencrc
  | chkcrc
  | calcsum (width : Option Nat)
  | addsum (width : Option Nat)
  | versum (width : Option Nat)
  | versums (width : Option Nat)
  deriving DecidableEq, Repr

/-- The instruction an assembler operation stands for: an omitted width is the `.D` form (R62). -/
def assemble : Asm → Instr
  | .addpar => .addpar
  | .chkpar => .chkpar
  | .divrem => .divrem
  | .gencrc => .gencrc
  | .chkcrc => .chkcrc
  | .calcsum (some n) => .calcsum n
  | .calcsum none => .calcsumD
  | .addsum (some n) => .addsum n
  | .addsum none => .addsumD
  | .versum (some n) => .versum n
  | .versum none => .versumD
  | .versums (some n) => .versums n
  | .versums none => .versumsD

/-- The mnemonic of an instruction, as the opcode table spells it (R57). -/
def mnemonic : Instr → String
  | .addpar => "ADDPAR"
  | .chkpar => "CHKPAR"
  | .divrem => "DIVREM"
  | .gencrc => "GENCRC"
  | .chkcrc => "CHKCRC"
  | .calcsum _ => "CALCSUM"
  | .calcsumD => "CALCSUM.D"
  | .addsum _ => "ADDSUM"
  | .addsumD => "ADDSUM.D"
  | .versum _ => "VERSUM"
  | .versumD => "VERSUM.D"
  | .versums _ => "VERSUMS"
  | .versumsD => "VERSUMS.D"

/-- A bit sequence as it is written: a string of `0` and `1`, position 0 leftmost (R50), and two quotation marks for the
empty one (R61). -/
def bitsText (s : Bits) : String :=
  if s.isEmpty then "\"\"" else String.ofList (s.map fun b => if b then '1' else '0')

/-- The width a command is written with, if any (R61). -/
def asmWidth : Asm → Option Nat
  | .addpar | .chkpar | .divrem | .gencrc | .chkcrc => none
  | .calcsum w | .addsum w | .versum w | .versums w => w

/-- A command as it is written: mnemonic, optional width, input sequence (R61). -/
def commandText (a : Asm) (x : Bits) : String :=
  match asmWidth a with
  | some n => mnemonic (assemble a) ++ " " ++ toString n ++ ", " ++ bitsText x
  | none => mnemonic (assemble a) ++ " " ++ bitsText x

end Sys2Proof
end

