-- ==== Sys2Proof/Machine/State.lean ====
section
/-! DEFINITION. The state of one instance (10_state.md), the host's coming actions (60_exceptions.md R147), the reasons a
step can stop, and the state after reset (R26). All of it is plain data. -/

namespace Sys2Proof.Machine

/-- The registers the host writes (R16) and reads (R18), by name. -/
inductive Reg where
  | cmd | inBuf | inLen
  | st | out | outLen | out2 | out2Len | val | flag
  deriving DecidableEq, Repr

/-- What the host can do to an instance (60_exceptions.md R147): the inputs of the machine. -/
inductive HostAction where
  /-- create a fresh instance with `POLY` and `DEFW` (70_reset_and_hazards.md R160) -/
  | create (poly : Bits) (defw : Int)
  /-- write the command register -/
  | writeCmd (w : CommandWord)
  /-- write a sequence into the buffer `IN` from position 0 (log 20) -/
  | writeIn (bits : Bits)
  /-- write `IN_LEN` -/
  | writeInLen (n : Nat)
  /-- issue the command the registers hold -/
  | issue
  /-- read a register -/
  | read (r : Reg)
  /-- read `OUT` and write it to `IN`, its length to `IN_LEN` (95_test_vectors.md P2, step 3) -/
  | takeOut
  /-- the second half of `FRAMECRC`: if `ST` is 0, the frame `IN ++ OUT` becomes the input (30_encoding.md R63) -/
  | formFrame
  /-- the channel step `FLIP` on the input sequence (30_encoding.md R64) -/
  | flip (i : Nat)
  /-- write text, 8 bits a character, most significant bit first (60_exceptions.md R149) -/
  | writeText (text : List Byte)
  deriving DecidableEq, Repr

/-- The state of one instance. Every register holds a value at reset (log 1). `none` in a result register is the spec's own
content *no value* after a command: an error leaves it in all of them (R136), and an ended operation in those it does not
write (R18). The configuration and the parameters are written by no operation (R11). -/
structure State where
  /-- `CFG`: `POLY` and `DEFW` (R11) -/
  cfg : Cfg
  /-- `MAX_BITS` and `WIDTH_POLICY` (00_scope.md R7, 42_checksum.md R101) -/
  params : Params
  /-- `CMD` (R16) -/
  cmd : CommandWord
  /-- the bits the host has written into the buffer `IN` (R16), position 0 first -/
  inBuf : Bits
  /-- `IN_LEN`: the input sequence is `IN[0..IN_LEN)` (R16) -/
  inLen : Nat
  /-- `ST` (R18, R21) -/
  st : StatusCode
  /-- `OUT` (R18) -/
  out : Option Bits
  /-- `OUT_LEN` (R18) -/
  outLen : Option Nat
  /-- `OUT2` (R18) -/
  out2 : Option Bits
  /-- `OUT2_LEN` (R18) -/
  out2Len : Option Nat
  /-- `VAL` (R20) -/
  val : Option Nat
  /-- `FLAG` (R19) -/
  flag : Option Bit
  /-- `WORK`, the divider's private buffer, hidden (R22) -/
  work : Bits
  /-- `SUM`, the checksum's accumulator, hidden (R23) -/
  sum : Nat
  /-- the host's coming actions, oldest first: the model's own field (R147, R148; log 5) -/
  pending : List HostAction
  deriving DecidableEq, Repr

/-- A run that went wrong (60_exceptions.md R148): the machine stops. -/
inductive Fault where
  /-- The host read a result register that the last command invalidated and did not write (R18, R136). The spec says that
  this stops: "a model must treat a read of such a register as a fault of the host, not as a read of zero" (10_state.md
  R25; 93_implementation_defined.md U13; 95_test_vectors.md P3). Raised by the host's reads only; no command raises it, and
  no read of a register untouched since reset does. Safe: the model stops. -/
  | invalidated (r : Reg)
  deriving DecidableEq, Repr

/-- What the block or the model takes no step for. -/
inductive Refusal where
  /-- An instruction without a meaning in the model; no arm of this model raises it. Safe. -/
  | notModelled (mnemonic : String)
  /-- A reserved command word was issued (30_encoding.md R60): "refused", no step, no register written. Raised by
  issuing. Safe. -/
  | reservedWord (why : Reserved)
  /-- A command that is not admitted (20_memory.md R33): `IN_LEN`, or a result, longer than `MAX_BITS`. Raised by the
  operations. Safe. -/
  | notAdmitted
  /-- A configuration that is not one of this hardware (10_state.md R12). Raised by creating an instance. Safe. -/
  | illegalConfiguration
  /-- The host writes a sequence longer than the buffer `IN` can hold (20_memory.md R30; 60_exceptions.md R147). Raised
  by the host's writes of `IN`. Safe. -/
  | overCapacity
  /-- The host flips a position outside the sequence (30_encoding.md R64). Raised by that action. Safe. -/
  | noSuchPosition
  deriving DecidableEq, Repr

/-- An instance just created (R160): its configuration, its parameters, and every other register at its reset value. The
spec gives these registers no reset value ("no value", R26); zero, and the empty sequence for a buffer, is the model's.
DESIGN CHOICE, unsafe (log 1). -/
def State.fresh (cfg : Cfg) (params : Params) (pending : List HostAction) : State where
  cfg := cfg
  params := params
  cmd := 0#16
  inBuf := []
  inLen := 0
  st := 0#2
  out := some []
  outLen := some 0
  out2 := some []
  out2Len := some 0
  val := some 0
  flag := some false
  work := []
  sum := 0
  pending := pending

/-- The machine right after reset (R26): the configuration of the source's instance (log 2, log 3), every other register at
its reset value (log 1), and no action of the host waiting (log 5). -/
def State.reset : State :=
  State.fresh ⟨Config.poly, Config.defw⟩ ⟨Config.maxBits, Config.widthPolicy⟩ []

end Sys2Proof.Machine
end

