-- ==== Sys2Proof/Machine/Ops.lean ====
section
/-! DEFINITION. The named operations over bit sequences, buffers and registers: integer readings (00_scope.md R9), access
to buffers (20_memory.md R31, R32), sampling of a command (R16, R33), writing a response (R18) and raising an error
(60_exceptions.md R136). -/

namespace Sys2Proof.Machine

/-- The outcome of a step of this machine. -/
abbrev Result := Host.Outcome State Fault Refusal

/-! ### Bit sequences -/

/-- `ones(s)`, the count of 1-bits (00_scope.md section 5). -/
def ones (s : Bits) : Nat := s.count true

/-- `val(s)`, the unsigned integer a sequence spells, most significant bit first (R9). -/
def valOf (s : Bits) : Nat := s.foldl (fun acc b => 2 * acc + b.toNat) 0

/-- `bits_N(v)`, the sequence of length `N` that spells `v`, zeros at the left (R9). -/
def bitsOf (n v : Nat) : Bits := (List.range n).map fun i => v.testBit (n - 1 - i)

/-- `0^k`. -/
def zeros (k : Nat) : Bits := List.replicate k false

/-- Bit by bit exclusive or of two sequences: addition of polynomials over GF(2) (41_crc_divider.md R80). -/
def xorBits (s t : Bits) : Bits := List.zipWith Bool.xor s t

/-- `s` with the bit at position `i` inverted: `FLIP` (30_encoding.md R64). -/
def flipAt (s : Bits) (i : Nat) : Bits := s.modify i Bool.not

/-- `MemRead(buf, a, n)`, the bits `buf[a..a+n)`; defined when `a + n` is at most the length of `buf` (R31). -/
def memRead (buf : Bits) (a n : Nat) : Bits := (buf.drop a).take n

/-- `MemWrite(buf, a, n, v)` for a sequence `v` of `n` bits: `buf[a..a+n)` becomes `v`, no other bit changes (R32). -/
def memWrite (buf : Bits) (a : Nat) (v : Bits) : Bits := buf.take a ++ (v ++ buf.drop (a + v.length))

/-! ### The configuration -/

/-- A configuration of this hardware: the polynomial's first bit is 1 and it has at least two bits (R12). -/
def legalPoly (poly : Bits) : Bool := poly.head? == some true && decide (2 ≤ poly.length)

/-- `d = L - 1`, the degree of the polynomial and the length of every remainder (R5). -/
def degree (poly : Bits) : Nat := poly.length - 1

/-- A buffer of capacity `MAX_BITS` holds `n` bits (R7, R30). -/
def fits (p : Params) (n : Nat) : Bool :=
  match p.maxBits with
  | none => true
  | some m => decide (n ≤ m)

/-- A result buffer, which may hold no value, is within its capacity. -/
def bufFits (p : Params) (b : Option Bits) : Bool :=
  match b with
  | none => true
  | some s => fits p s.length

/-- The working buffer is within its capacity `MAX_BITS + d` (R22, R30). -/
def workFits (p : Params) (d : Nat) (work : Bits) : Bool :=
  match p.maxBits with
  | none => true
  | some m => decide (work.length ≤ m + d)

/-- The canonical form of the block's storage (R30): each length register agrees with its buffer, and no buffer exceeds
its capacity. The buffers are sequences of bits; the hardware has no memory of bytes (log 7). -/
def Memory.wf (s : State) : Bool :=
  s.outLen == s.out.map List.length && s.out2Len == s.out2.map List.length &&
    fits s.params s.inBuf.length && bufFits s.params s.out && bufFits s.params s.out2 &&
    workFits s.params (degree s.cfg.poly) s.work

/-! ### Sampling a command -/

/-- What a bit of the buffer `IN` reads as that nothing has written since reset. DESIGN CHOICE, unsafe (log 20). -/
def unwrittenBit : Bit := false

/-- The input sequence `IN[0..IN_LEN)` (R16): the bits the host has written, and beyond them unwritten ones (log 20). -/
def inputSeq (s : State) : Bits :=
  s.inBuf.take s.inLen ++ List.replicate (s.inLen - s.inBuf.length) unwrittenBit

/-- The block samples its input sequence once, at issue (R16), and goes on with it. An `IN_LEN` above `MAX_BITS` is not
admitted (R33; log 8). -/
def withInput (s : State) (go : Bits → Result) : Result :=
  if fits s.params s.inLen then go (inputSeq s) else .refused .notAdmitted

/-! ### The response -/

/-- The results of one operation: `none` for a register the operation does not write (R18). -/
structure Response where
  out : Option Bits := none
  out2 : Option Bits := none
  val : Option Nat := none
  flag : Option Bit := none
  deriving DecidableEq, Repr

/-- Every result sequence fits its buffer (R33). -/
def responseFits (p : Params) (r : Response) : Bool := bufFits p r.out && bufFits p r.out2

/-- Write `ST` and every result register: the ones the operation does not write hold no value (R18). -/
def State.setResponse (s : State) (code : StatusCode) (r : Response) : State :=
  { s with
    st := code
    out := r.out
    outLen := r.out.map List.length
    out2 := r.out2
    out2Len := r.out2.map List.length
    val := r.val
    flag := r.flag }

/-- Load the divider's working buffer (R22). -/
def State.setWork (s : State) (w : Bits) : State := { s with work := w }

/-- Write the checksum's accumulator (R23). -/
def State.setSum (s : State) (n : Nat) : State := { s with sum := n }

/-- `OK` (60_exceptions.md R131). -/
def stOk : StatusCode := 0#2

/-- `InvalidInputLength` (R131). -/
def stInvalidInputLength : StatusCode := 1#2

/-- `InvalidWidth` (R131). -/
def stInvalidWidth : StatusCode := 2#2

/-- An operation ends normally: `ST = 0` and its results are stored whole (R18, 20_memory.md R32). A result that does
not fit its buffer means that the command was not admitted: no step (R33; log 8). -/
def respond (r : Response) (s : State) : Result :=
  if responseFits s.params r then .next (s.setResponse stOk r) else .refused .notAdmitted

/-- Error entry: the block writes the code to `ST`, leaves every result register holding no value, and changes nothing
else; control stays with the host (60_exceptions.md R136). There is nothing to return from (R137). -/
def raise (code : StatusCode) (s : State) : Result := .next (s.setResponse code {})

end Sys2Proof.Machine
end

