-- ==== Sys2Proof/Machine/Flags.lean ====
section
/-! DEFINITION. What each operation writes to `FLAG` (10_state.md R19) and the parity bit. -/

namespace Sys2Proof.Machine

/-- The parity bit `ones(IN) mod 2`: 1 iff the count of 1-bits is odd (40_parity.md R71). -/
def parityBit (s : Bits) : Bit := ones s % 2 == 1

/-- `FLAG` after `CHKPAR`: 1 iff the count of 1-bits is even (40_parity.md R73). -/
def evenFlag (s : Bits) : Bit := ones s % 2 == 0

/-- `FLAG` after `VERSUM`: 1 iff the folded total is the all-ones word `M = 2^W - 1` (42_checksum.md R113, R115). -/
def allOnesFlag (t w : Nat) : Bit := t == 2 ^ w - 1

/-- `FLAG` after `VERSUMS`: 1 iff the two checksums are equal bit for bit, lengths included (42_checksum.md R116). -/
def sameBitsFlag (recv recomputed : Bits) : Bit := recv == recomputed

end Sys2Proof.Machine
end

