-- ==== Sys2Proof/Machine/Operands.lean ====
section
/-! DEFINITION. The operands of a command: the width `W` of the checksum operations in both forms (10_state.md R17;
30_encoding.md R54, R55; 42_checksum.md R100, R101), and the payload and check bits of a frame (42_checksum.md R111). -/

namespace Sys2Proof.Machine

/-- `W = zext(WF)` (R54). -/
def fieldWidth (wf : Nat) : Int := (wf : Int)

/-- `W = CFG.DEFW`, the default-width form (R55). -/
def defaultWidth (s : State) : Int := s.cfg.defw

/-- The widths the block accepts (R100, R101): every positive one under `generic`, 8, 16 and 32 under `strict`. -/
def acceptWidth (policy : WidthPolicy) (w : Int) : Option Nat :=
  if w ≤ 0 then none
  else
    match policy with
    | .generic => some w.toNat
    | .strict => if w = 8 ∨ w = 16 ∨ w = 32 then some w.toNat else none

/-- The first thing a checksum operation does is test its width: `InvalidWidth`, or on with `W` (R100; 60_exceptions.md
R135). -/
def withWidth (w : Int) (s : State) (go : Nat → Result) : Result :=
  match acceptWidth s.params.widthPolicy w with
  | none => raise stInvalidWidth s
  | some n => go n

/-- The position `c = max(0, len(s) - W)` where `SPLIT` cuts (R111). -/
def splitPoint (s : Bits) (w : Nat) : Nat := s.length - w

/-- The data portion of a received frame (R111). -/
def dataPart (s : Bits) (w : Nat) : Bits := s.take (splitPoint s w)

/-- The received checksum: the last `W` bits, or all of a frame shorter than `W` (R111). -/
def recvPart (s : Bits) (w : Nat) : Bits := s.drop (splitPoint s w)

end Sys2Proof.Machine
end

