-- ==== Sys2Proof/Machine/Checksum.lean ====
section
/-! DEFINITION. The one's-complement checksum: the helpers `PAD`, `SUMW`, `FOLD`, `TOTAL` (42_checksum.md R102 to R104,
R112) and `CALCSUM`, `ADDSUM`, `VERSUM`, `VERSUMS`, each with its default-width form. -/

namespace Sys2Proof.Machine

/-- `PAD(s, W)`: zero bits at the right until the length is a multiple of `W` (R102). -/
def pad (s : Bits) (w : Nat) : Bits := s ++ zeros ((w - s.length % w) % w)

/-- The word at index `j`, first bit most significant (R103). -/
def word (s : Bits) (w j : Nat) : Nat := valOf (memRead s (j * w) w)

/-- The words of a sequence whose length is a multiple of `W`, in order (R103). -/
def words (s : Bits) (w : Nat) : List Nat := (List.range (s.length / w)).map (word s w)

/-- `SUMW(s, W)`: the exact sum of all words (R103). -/
def sumw (s : Bits) (w : Nat) : Nat := (words s w).sum

/-- One pass of the fold: the low `W` bits plus everything above them (R104). -/
def foldPass (v w : Nat) : Nat := v % 2 ^ w + v / 2 ^ w

/-- The fold loop of R104 with a bound on its passes. -/
def foldLoop (w : Nat) : Nat → Nat → Nat
  | 0, v => v
  | k + 1, v => if v < 2 ^ w then v else foldLoop w k (foldPass v w)

/-- `FOLD(v, W)`: repeat the pass while the value does not fit in `W` bits (R104). Each pass makes the value smaller
(R105 (a)), so `v` passes are enough. -/
def fold (v w : Nat) : Nat := foldLoop w v v

/-- The bitwise complement taken in `W` bits, `M - f` (R107, R121). -/
def notW (w f : Nat) : Nat := 2 ^ w - 1 - f

/-- The folded sum of a payload (R107). -/
def foldedSum (s : Bits) (w : Nat) : Nat := fold (sumw (pad s w) w) w

/-- `CHECKSUM(s, W)` (R107): `W` bits, most significant first. -/
def checksum (s : Bits) (w : Nat) : Bits := bitsOf w (notW w (foldedSum s w))

/-- The accumulator that folds the carry at every addition (R106): what an implementation may do instead. -/
def foldEach (s : Bits) (w : Nat) : Nat := (words s w).foldl (fun acc x => fold (acc + x) w) 0

/-- `TOTAL(s, W)`: the words of the data portion, padded on its own, and the received checksum as one more word
(R112). -/
def total (s : Bits) (w : Nat) : Nat := sumw (pad (dataPart s w) w) w + valOf (recvPart s w)

/-- `CALCSUM` of width `W` (R107). -/
def calcsum (w : Int) (s : State) : Result :=
  withInput s fun x => withWidth w s fun n =>
    respond { out := some (checksum x n) } (s.setSum (sumw (pad x n) n))

/-- `ADDSUM` of width `W` (R110): the payload, unpadded, and its checksum. -/
def addsum (w : Int) (s : State) : Result :=
  withInput s fun x => withWidth w s fun n =>
    respond { out := some (x ++ checksum x n) } (s.setSum (sumw (pad x n) n))

/-- `VERSUM` of width `W` (R113): the sum-to-zero rule. -/
def versum (w : Int) (s : State) : Result :=
  withInput s fun x => withWidth w s fun n =>
    respond { flag := some (allOnesFlag (fold (total x n) n) n) } (s.setSum (total x n))

/-- `VERSUMS` of width `W` (R116): recompute and compare. -/
def versums (w : Int) (s : State) : Result :=
  withInput s fun x => withWidth w s fun n =>
    respond
      { flag := some (sameBitsFlag (recvPart x n) (checksum (dataPart x n) n))
        out := some (checksum (dataPart x n) n)
        out2 := some (recvPart x n) }
      (s.setSum (sumw (pad (dataPart x n) n) n))

/-- `CALCSUM W` (R107, R54). -/
def execCalcsum (wf : Nat) (s : State) : Result := calcsum (fieldWidth wf) s

/-- `CALCSUM.D` (R107, R55). -/
def execCalcsumD (s : State) : Result := calcsum (defaultWidth s) s

/-- `ADDSUM W` (R110, R54). -/
def execAddsum (wf : Nat) (s : State) : Result := addsum (fieldWidth wf) s

/-- `ADDSUM.D` (R110, R55). -/
def execAddsumD (s : State) : Result := addsum (defaultWidth s) s

/-- `VERSUM W` (R113, R54). -/
def execVersum (wf : Nat) (s : State) : Result := versum (fieldWidth wf) s

/-- `VERSUM.D` (R113, R55). -/
def execVersumD (s : State) : Result := versum (defaultWidth s) s

/-- `VERSUMS W` (R116, R54). -/
def execVersums (wf : Nat) (s : State) : Result := versums (fieldWidth wf) s

/-- `VERSUMS.D` (R116, R55). -/
def execVersumsD (s : State) : Result := versums (defaultWidth s) s

end Sys2Proof.Machine
end

