-- ==== Sys2Proof/Machine/Divider.lean ====
section
/-! DEFINITION. The CRC polynomial divider: the primitive `DIVIDE` (41_crc_divider.md R81, R82) and `DIVREM`, `GENCRC`,
`CHKCRC`. -/

namespace Sys2Proof.Machine

/-- XOR the window `WORK[i..i+L)` with the polynomial, in place (R81; 20_memory.md R45 (b)). -/
def xorWindow (poly work : Bits) (i : Nat) : Bits :=
  memWrite work i (xorBits (memRead work i poly.length) poly)

/-- The scan: `k` positions in ascending order from `i`; the test reads the buffer as earlier windows left it (R81). -/
def scan (poly : Bits) : Nat → Nat → Bits → Bits
  | 0, _, work => work
  | k + 1, i, work =>
    scan poly k (i + 1) (if work.getD i false then xorWindow poly work i else work)

/-- `DIVIDE(buf)`: the final content of `WORK` after the scan of all `m - L + 1` positions (R81), or none, that is
`InvalidInputLength`, when the buffer is shorter than the polynomial (R82). -/
def divide (poly buf : Bits) : Option Bits :=
  if buf.length < poly.length then none
  else some (scan poly (buf.length - poly.length + 1) 0 buf)

/-- The remainder `WORK[m-d..m)`: the last `d` bits after the scan (R81). -/
def remainder (poly work : Bits) : Bits := work.drop (work.length - degree poly)

/-- What `DIVIDE(buf)` returns: the remainder, or none for `InvalidInputLength` (R81, R82). -/
def divRem (poly buf : Bits) : Option Bits := (divide poly buf).map (remainder poly)

/-- Run `DIVIDE` on a private copy of the operand in `WORK` (R85) and go on with the remainder; a short operand raises
`InvalidInputLength` before any working state changes (R82; 60_exceptions.md R135). What `WORK` holds afterwards
cannot be observed (log 6). -/
def withDivide (buf : Bits) (s : State) (go : Bits → State → Result) : Result :=
  match divide s.cfg.poly buf with
  | none => raise stInvalidInputLength s
  | some w => go (remainder s.cfg.poly w) (s.setWork w)

/-- `DIVREM` (R84): the remainder of the input as it stands. -/
def execDivrem (s : State) : Result :=
  withInput s fun x => withDivide x s fun r => respond { out := some r }

/-- `GENCRC` (R86): the CRC of a payload, which is padded with `d` zero bits. -/
def execGencrc (s : State) : Result :=
  withInput s fun x => withDivide (x ++ zeros (degree s.cfg.poly)) s fun r => respond { out := some r }

/-- `CHKCRC` (R89): the integer value of the remainder of a received frame. -/
def execChkcrc (s : State) : Result :=
  withInput s fun x => withDivide x s fun r => respond { val := some (valOf r) }

end Sys2Proof.Machine
end

