-- ==== Sys2Proof/Machine/Parity.lean ====
section
/-! DEFINITION. The ParityCoder: `ADDPAR` and `CHKPAR` (40_parity.md). Both read `IN` and nothing else (R70). -/

namespace Sys2Proof.Machine

/-- `ADDPAR` (R71): append the even-parity bit. -/
def execAddpar (s : State) : Result :=
  withInput s fun x => respond { out := some (x ++ [parityBit x]) } s

/-- `CHKPAR` (R73): test for even parity. -/
def execChkpar (s : State) : Result :=
  withInput s fun x => respond { flag := some (evenFlag x) } s

end Sys2Proof.Machine
end

