-- ==== Sys2Proof/Machine/Dispatch.lean ====
section
/-! DEFINITION. The meaning of every operation, one arm per constructor (30_encoding.md R56). -/

namespace Sys2Proof.Machine

def exec (i : Instr) (s : State) : Host.Outcome State Fault Refusal :=
  match i with
  | .addpar => Sys2Proof.Machine.execAddpar s
  | .chkpar => Sys2Proof.Machine.execChkpar s
  | .divrem => Sys2Proof.Machine.execDivrem s
  | .gencrc => Sys2Proof.Machine.execGencrc s
  | .chkcrc => Sys2Proof.Machine.execChkcrc s
  | .calcsum wf => Sys2Proof.Machine.execCalcsum wf s
  | .calcsumD => Sys2Proof.Machine.execCalcsumD s
  | .addsum wf => Sys2Proof.Machine.execAddsum wf s
  | .addsumD => Sys2Proof.Machine.execAddsumD s
  | .versum wf => Sys2Proof.Machine.execVersum wf s
  | .versumD => Sys2Proof.Machine.execVersumD s
  | .versums wf => Sys2Proof.Machine.execVersums wf s
  | .versumsD => Sys2Proof.Machine.execVersumsD s

end Sys2Proof.Machine
end

