-- ==== Sys2Proof/Machine/HostSide.lean ====
section
/-! DEFINITION. What the host does to an instance besides issuing (60_exceptions.md R147): creating it, writing and reading
its registers, editing the input sequence, and the text codec outside the block (R149). -/

namespace Sys2Proof.Machine

/-- What a register holds, by kind of value (00_scope.md R8). -/
inductive RegValue where
  | code (c : StatusCode)
  | command (w : CommandWord)
  | bits (s : Bits)
  | num (n : Nat)
  | bit (b : Bit)
  deriving DecidableEq, Repr

/-- The content of a register; `none` is *no value*, which only a result register can hold, after a command (R18). -/
def State.valueIn (s : State) : Reg → Option RegValue
  | .cmd => some (.command s.cmd)
  | .inBuf => some (.bits s.inBuf)
  | .inLen => some (.num s.inLen)
  | .st => some (.code s.st)
  | .out => s.out.map .bits
  | .outLen => s.outLen.map .num
  | .out2 => s.out2.map .bits
  | .out2Len => s.out2Len.map .num
  | .val => s.val.map .num
  | .flag => s.flag.map .bit

/-- Create an instance (R160): the configuration, and every other register at its reset value (log 1); nothing survives but
the implementation's parameters and the host's coming actions (log 12). A configuration that is not one of this hardware
is refused (R12). -/
def createInstance (poly : Bits) (defw : Int) (s : State) : Result :=
  if legalPoly poly then .next (State.fresh ⟨poly, defw⟩ s.params s.pending)
  else .refused .illegalConfiguration

/-- Write `CMD` (R16). -/
def State.setCmd (s : State) (w : CommandWord) : State := { s with cmd := w }

/-- Write a sequence into `IN` from position 0: no bit beyond it changes (20_memory.md R32, R37; log 20). -/
def State.setInBuf (s : State) (bits : Bits) : State := { s with inBuf := memWrite s.inBuf 0 bits }

/-- Write `IN_LEN` (R16). -/
def State.setInLen (s : State) (n : Nat) : State := { s with inLen := n }

/-- Write `IN`, which holds at most `MAX_BITS` bits (R30). -/
def writeInput (bits : Bits) (s : State) : Result :=
  if fits s.params bits.length then .next (s.setInBuf bits) else .refused .overCapacity

/-- Write a whole input sequence: `IN` and `IN_LEN` (70_reset_and_hazards.md R163). -/
def loadInput (bits : Bits) (s : State) : Result :=
  if fits s.params bits.length then .next ((s.setInBuf bits).setInLen bits.length)
  else .refused .overCapacity

/-- The host reads a register: nothing changes (20_memory.md R39). A result register that the last command left without a
value is a fault of the host (R25). -/
def readRegister (r : Reg) (s : State) : Result :=
  match s.valueIn r with
  | some _ => .next s
  | none => .fault (.invalidated r)

/-- The host reads the whole main result `OUT[0..OUT_LEN)`, which it may do unless the last command left it
without a value (R25). -/
def withOut (s : State) (go : Bits → Result) : Result :=
  match s.out with
  | none => .fault (.invalidated .out)
  | some o => go o

/-- `IN <- OUT`, `IN_LEN <- OUT_LEN` (95_test_vectors.md P2). -/
def takeOutput (s : State) : Result := withOut s fun o => loadInput o s

/-- The second half of `FRAMECRC`: "if `ST = 0`, form `s ++ OUT`" (30_encoding.md R63). With another status no frame is
formed. -/
def formFrameFrom (s : State) : Result :=
  if s.st = stOk then withInput s fun x => withOut s fun o => loadInput (x ++ o) s
  else .next s

/-- `FLIP` at position `i` of the input sequence (30_encoding.md R64). -/
def flipInput (i : Nat) (s : State) : Result :=
  withInput s fun x => if i < x.length then loadInput (flipAt x i) s else .refused .noSuchPosition

/-- Text as bits: 8 bits a character, most significant first (R149). -/
def encodeText (text : List Byte) : Bits := text.flatMap fun c => bitsOf 8 c.toNat

/-- Bits as text: a trailing partial byte is dropped and a byte whose value is zero is skipped (R149). -/
def decodeText : Bits → List Byte
  | b0 :: b1 :: b2 :: b3 :: b4 :: b5 :: b6 :: b7 :: rest =>
    if valOf [b0, b1, b2, b3, b4, b5, b6, b7] = 0 then decodeText rest
    else BitVec.ofNat 8 (valOf [b0, b1, b2, b3, b4, b5, b6, b7]) :: decodeText rest
  | _ => []

/-- The host's actions for one command: write `IN`, `IN_LEN` and `CMD`, then issue (70_reset_and_hazards.md R163). A width
written above 255 is issued as its low eight bits: DESIGN CHOICE, unsafe (log 21). -/
def commandActions (a : Asm) (x : Bits) : List HostAction :=
  [.writeIn x, .writeInLen x.length, .writeCmd (encode (assemble a)), .issue]

/-- `FRAMECRC s` (30_encoding.md R63). -/
def frameCrcActions (x : Bits) : List HostAction := commandActions .gencrc x ++ [.formFrame]

end Sys2Proof.Machine
end

