-- ==== Sys2Proof/Machine/Issue.lean ====
section
/-! DEFINITION. Issuing a command (30_encoding.md R58, R60), and performing any one action of the host
(60_exceptions.md R147). -/

namespace Sys2Proof.Machine

/-- Issue: decode `CMD` and run the operation it selects (R58). A reserved word is refused: no step (R60). -/
def issueCommand (s : State) : Result :=
  match decode s.cmd with
  | .ok i => exec i s
  | .error why => .refused (.reservedWord why)

/-- One action of the host, on an instance whose earlier operations have ended (R147). -/
def perform (a : HostAction) (s : State) : Result :=
  match a with
  | .create poly defw => createInstance poly defw s
  | .writeCmd w => .next (s.setCmd w)
  | .writeIn bits => writeInput bits s
  | .writeInLen n => .next (s.setInLen n)
  | .issue => issueCommand s
  | .read r => readRegister r s
  | .takeOut => takeOutput s
  | .formFrame => formFrameFrom s
  | .flip i => flipInput i s
  | .writeText text => loadInput (encodeText text) s

/-- The host has done its first coming action: it is no longer waiting. -/
def State.setPending (s : State) (rest : List HostAction) : State := { s with pending := rest }

/-- The host's next action is performed; with none waiting the run has ended (60_exceptions.md R148) and the block stays
idle (70_reset_and_hazards.md R161; log 5). -/
def advance (s : State) : Result :=
  match s.pending with
  | [] => .next s
  | a :: rest => perform a (s.setPending rest)

/-- `s` with a command placed to be issued next: `CMD` written and the issue waiting first, on the input the state holds
(log 17). -/
def placeCommand (s : State) (w : CommandWord) : State := { s with cmd := w, pending := .issue :: s.pending }

end Sys2Proof.Machine
end

