-- ==== Sys2Proof/Machine/Step.lean ====
section
/-! DEFINITION. One step of the machine, and where a test places the command the next step runs. -/

namespace Sys2Proof.Machine

/-- One step: the next action of the host; an issued command is one atomic step of the block (10_state.md R10;
20_memory.md R38). -/
def step : State → Host.Outcome State Fault Refusal := advance

/-- `s` with the command of an opcode-table word issued by the next step (log 17). -/
def State.withFetchWord (s : State) (nbits w : Nat) : State := placeCommand s (tableWord nbits w)

end Sys2Proof.Machine
end

