-- ==== Sys2Proof/Safety.lean ====
section
/-! DEFINITION. The terms claims are stated in: when a command can be issued, what a response is, what an operation leaves
alone, the legal states, and a bit sequence as a polynomial over GF(2). -/

namespace Sys2Proof.Machine

/-- The input sequence is `x`, and `MAX_BITS` admits it (10_state.md R16; 20_memory.md R33). -/
abbrev Ready (s : State) (x : Bits) : Prop := inputSeq s = x ∧ fits s.params x.length = true

/-- An operation answers a next state with a property. -/
def Answers (i : Instr) (s : State) (P : State → Prop) : Prop := ∃ t, exec i s = .next t ∧ P t

/-- The whole response (10_state.md R18): the status, and every result register, its length register included; `none`
is *no value*. -/
abbrev HasResponse (t : State) (code : StatusCode) (out out2 : Option Bits) (val : Option Nat) (flag : Option Bit) :
    Prop :=
  t.st = code ∧ t.out = out ∧ t.outLen = out.map List.length ∧ t.out2 = out2 ∧
    t.out2Len = out2.map List.length ∧ t.val = val ∧ t.flag = flag

/-- Two states hold the same response. -/
abbrev SameResponse (s t : State) : Prop :=
  t.st = s.st ∧ t.out = s.out ∧ t.outLen = s.outLen ∧ t.out2 = s.out2 ∧ t.out2Len = s.out2Len ∧ t.val = s.val ∧
    t.flag = s.flag

/-- Every result register holds no value. -/
abbrev NoResult (s : State) : Prop :=
  s.out = none ∧ s.outLen = none ∧ s.out2 = none ∧ s.out2Len = none ∧ s.val = none ∧ s.flag = none

/-- Every register outside the configuration holds its reset value: zero, or the empty sequence (the model's choice,
log 1). -/
abbrev RegistersAtReset (s : State) : Prop :=
  s.cmd = 0#16 ∧ s.inBuf = [] ∧ s.inLen = 0 ∧ HasResponse s 0#2 (some []) (some []) (some 0) (some false) ∧
    s.work = [] ∧ s.sum = 0

/-- Everything outside the response and the hidden registers is the same: the frame of every operation. -/
abbrev SameRest (s t : State) : Prop :=
  t.cfg = s.cfg ∧ t.params = s.params ∧ t.cmd = s.cmd ∧ t.inBuf = s.inBuf ∧ t.inLen = s.inLen ∧ t.pending = s.pending

/-- The hidden registers are the same. -/
abbrev SameHidden (s t : State) : Prop := t.work = s.work ∧ t.sum = s.sum

/-- `t` is `s` after an error (60_exceptions.md R136). -/
abbrev ErrorEntry (s t : State) (code : StatusCode) : Prop :=
  HasResponse t code none none none none ∧ SameRest s t ∧ SameHidden s t

/-- A width the block computes with (42_checksum.md R100, R101). -/
abbrev Accepted (policy : WidthPolicy) (w : Int) : Prop :=
  0 < w ∧ (policy = .generic ∨ w = 8 ∨ w = 16 ∨ w = 32)

/-- When an operation on the input `x` raises `InvalidInputLength` (60_exceptions.md R132). -/
def LengthErrorCause (poly x : Bits) : Instr → Prop
  | .divrem | .chkcrc => x.length < poly.length
  | .gencrc => x = []
  | .addpar | .chkpar => False
  | .calcsum _ | .addsum _ | .versum _ | .versums _ => False
  | .calcsumD | .addsumD | .versumD | .versumsD => False

/-- When an operation raises `InvalidWidth` (60_exceptions.md R132). -/
def WidthErrorCause (policy : WidthPolicy) (defw : Int) : Instr → Prop
  | .calcsum wf | .addsum wf | .versum wf | .versums wf => ¬ Accepted policy wf
  | .calcsumD | .addsumD | .versumD | .versumsD => ¬ Accepted policy defw
  | .addpar | .chkpar | .divrem | .gencrc | .chkcrc => False

/-- Operations that write `OUT` (10_state.md R18). -/
def writesOut : Instr → Bool
  | .addpar | .divrem | .gencrc => true
  | .calcsum _ | .calcsumD | .addsum _ | .addsumD | .versums _ | .versumsD => true
  | .chkpar | .chkcrc | .versum _ | .versumD => false

/-- Operations that write `OUT2` (R18). -/
def writesOut2 : Instr → Bool
  | .versums _ | .versumsD => true
  | .addpar | .chkpar | .divrem | .gencrc | .chkcrc => false
  | .calcsum _ | .calcsumD | .addsum _ | .addsumD | .versum _ | .versumD => false

/-- Operations that write `VAL` (R18). -/
def writesVal : Instr → Bool
  | .chkcrc => true
  | .addpar | .chkpar | .divrem | .gencrc => false
  | .calcsum _ | .calcsumD | .addsum _ | .addsumD | .versum _ | .versumD | .versums _ | .versumsD => false

/-- Operations that write `FLAG` (R18). -/
def writesFlag : Instr → Bool
  | .chkpar | .versum _ | .versumD | .versums _ | .versumsD => true
  | .addpar | .divrem | .gencrc | .chkcrc => false
  | .calcsum _ | .calcsumD | .addsum _ | .addsumD => false

/-- Operations that run the divider and load `WORK` (R22). -/
def usesDivider : Instr → Bool
  | .divrem | .gencrc | .chkcrc => true
  | .addpar | .chkpar => false
  | .calcsum _ | .calcsumD | .addsum _ | .addsumD | .versum _ | .versumD | .versums _ | .versumsD => false

/-- Operations that use the accumulator `SUM` (R23). -/
def usesSum : Instr → Bool
  | .calcsum _ | .calcsumD | .addsum _ | .addsumD | .versum _ | .versumD | .versums _ | .versumsD => true
  | .addpar | .chkpar | .divrem | .gencrc | .chkcrc => false

/-- What every reachable state satisfies: the configuration is one of this hardware (10_state.md R12), the storage is in
its canonical form (20_memory.md R30), `ST` is not 3 (60_exceptions.md R131), results stand only beside `ST = 0` (R136),
and `VAL` is a number of `d` bits (10_state.md R20). -/
abbrev Legal (s : State) : Prop :=
  legalPoly s.cfg.poly = true ∧ Memory.wf s = true ∧ s.st ≠ 3#2 ∧ (s.st = stOk ∨ NoResult s) ∧
    s.val.all (fun v => decide (v < 2 ^ degree s.cfg.poly)) = true

/-- A sequence read as a polynomial over GF(2), first bit the coefficient of the highest power (30_encoding.md R51). -/
noncomputable def gf2 (s : Bits) : Polynomial (ZMod 2) :=
  s.foldl (fun p b => p * Polynomial.X + Polynomial.C (if b then 1 else 0)) 0

end Sys2Proof.Machine
end

