-- ==== Sys2Proof/Certificates/Slice0/Obligations.lean ====
section
/-! DEFINITION. The statements for the provers. Each docstring says which rule or section of the spec it formalises; "spec's
inference" marks a statement the spec itself derives ([derived: ...]). Claims quantify over every configuration and both
width policies; none uses the generator the reset state holds (log 2) or the content of `WORK` and `SUM` (log 6). -/

open Sys2Proof Sys2Proof.Machine

/-! ### Encoding, decoding and issuing -/

/-- 30_encoding.md section B.3: every instruction a command word can spell is read back from its own word. -/
def Obligations.DecodeAfterEncode : Prop :=
  ∀ i : Instr, WellFormed i = true → decode (encode i) = .ok i

/-- 30_encoding.md section B.3: a word that decodes is the word of what it decodes to. -/
def Obligations.EncodeAfterDecode : Prop :=
  ∀ (w : CommandWord) (i : Instr), decode w = .ok i → encode i = w ∧ WellFormed i = true

/-- R57: a word selects exactly the row whose pattern it matches under its mask. -/
def Obligations.CommandWordSelectsItsRow : Prop :=
  ∀ (w : CommandWord) (i : Instr), decode w = .ok i ↔
    match i with
    | .addpar => w &&& 0xFFFF#16 = 0x0000#16
    | .chkpar => w &&& 0xFFFF#16 = 0x1000#16
    | .divrem => w &&& 0xFFFF#16 = 0x2000#16
    | .gencrc => w &&& 0xFFFF#16 = 0x3000#16
    | .chkcrc => w &&& 0xFFFF#16 = 0x4000#16
    | .calcsum n => w &&& 0xFF00#16 = 0x5000#16 ∧ n = (w &&& 0x00FF#16).toNat
    | .calcsumD => w &&& 0xFFFF#16 = 0x5800#16
    | .addsum n => w &&& 0xFF00#16 = 0x6000#16 ∧ n = (w &&& 0x00FF#16).toNat
    | .addsumD => w &&& 0xFFFF#16 = 0x6800#16
    | .versum n => w &&& 0xFF00#16 = 0x7000#16 ∧ n = (w &&& 0x00FF#16).toNat
    | .versumD => w &&& 0xFFFF#16 = 0x7800#16
    | .versums n => w &&& 0xFF00#16 = 0x8000#16 ∧ n = (w &&& 0x00FF#16).toNat
    | .versumsD => w &&& 0xFFFF#16 = 0x8800#16

/-- R60: which words are reserved, and that issuing one is refused: no next state, no status, nothing written. -/
def Obligations.ReservedWordsAreRefused : Prop :=
  (∀ w : CommandWord, (∃ why, decode w = .error why) ↔
    (9 ≤ w.toNat / 4096 ∨ w.toNat / 256 % 8 ≠ 0 ∨
      (w.toNat / 4096 ≤ 4 ∧ (w.toNat / 2048 % 2 = 1 ∨ w.toNat % 256 ≠ 0)) ∨
      (5 ≤ w.toNat / 4096 ∧ w.toNat / 4096 ≤ 8 ∧ w.toNat / 2048 % 2 = 1 ∧ w.toNat % 256 ≠ 0))) ∧
  ∀ (s : State) (w : CommandWord) (why : Reserved),
    s.cmd = w → decode w = .error why → issueCommand s = .refused (.reservedWord why)

/-- 95_test_vectors.md section 2.4 (V-DEC-01 to V-DEC-12): some words of R57 and R60. -/
def Obligations.SampleWordsDecode : Prop :=
  decode 0x0000#16 = .ok .addpar ∧ decode 0x1000#16 = .ok .chkpar ∧ decode 0x2000#16 = .ok .divrem ∧
    decode 0x3000#16 = .ok .gencrc ∧ decode 0x4000#16 = .ok .chkcrc ∧ decode 0x5008#16 = .ok (.calcsum 8) ∧
    decode 0x50FF#16 = .ok (.calcsum 255) ∧ decode 0x6010#16 = .ok (.addsum 16) ∧
    decode 0x7010#16 = .ok (.versum 16) ∧ decode 0x8020#16 = .ok (.versums 32) ∧
    decode 0x5800#16 = .ok .calcsumD ∧ decode 0x8800#16 = .ok .versumsD ∧
    decode 0x8820#16 = .error .strayWidth ∧ decode 0x4010#16 = .error .strayOperand ∧
    decode 0x7408#16 = .error .zeroBits ∧ decode 0x9000#16 = .error .operationCode

/-- R58 and 10_state.md section 4: when the host issues, the step is the operation that `CMD` decodes to. The list of the
host's actions is the model's own field (log 5). -/
def Obligations.StepRunsIssuedCommand : Prop :=
  ∀ (s : State) (w : CommandWord) (i : Instr) (rest : List HostAction),
    s.cmd = w → decode w = .ok i → s.pending = .issue :: rest → step s = exec i (s.setPending rest)

/-- 70_reset_and_hazards.md R163 through the model's list of host actions (log 5): writing `IN`, `IN_LEN` and `CMD` and then
issuing runs the command, on that input whatever the registers held before. -/
def Obligations.CommandSequenceIssuesCommand : Prop :=
  ∀ (s : State) (a : Asm) (x : Bits) (rest : List HostAction),
    s.pending = commandActions a x ++ rest → fits s.params x.length = true → WellFormed (assemble a) = true →
      ∃ u, u = (((s.setInBuf x).setInLen x.length).setCmd (encode (assemble a))).setPending rest ∧ Ready u x ∧
        Host.Core.run core 4 s = exec (assemble a) u

/-- R55: a default-width form does what the form with a width field does with `W = CFG.DEFW` (with a `DEFW` that is not
positive, what width 0 does: 42_checksum.md R100), and its words with a width field are reserved. -/
def Obligations.DefaultWidthFormUsesDefw : Prop :=
  decode 0x5800#16 = .ok .calcsumD ∧ decode 0x6800#16 = .ok .addsumD ∧ decode 0x7800#16 = .ok .versumD ∧
    decode 0x8800#16 = .ok .versumsD ∧
  (∀ k, 1 ≤ k → k < 256 → ∀ p ∈ [0x5800, 0x6800, 0x7800, 0x8800],
    decode (BitVec.ofNat 16 (p + k)) = .error .strayWidth) ∧
  (∀ (s : State) (n : Nat), s.cfg.defw = n →
    exec .calcsumD s = exec (.calcsum n) s ∧ exec .addsumD s = exec (.addsum n) s ∧
      exec .versumD s = exec (.versum n) s ∧ exec .versumsD s = exec (.versums n) s) ∧
  ∀ s : State, s.cfg.defw < 0 →
    exec .calcsumD s = exec (.calcsum 0) s ∧ exec .addsumD s = exec (.addsum 0) s ∧
      exec .versumD s = exec (.versum 0) s ∧ exec .versumsD s = exec (.versums 0) s

/-! ### Parity -/

/-- R71: `ADDPAR` appends the parity bit; response, frame, and no failure. -/
def Obligations.AddparAppendsParityBit : Prop :=
  decode 0x0000#16 = .ok .addpar ∧
  ∀ (s : State) (x : Bits), Ready s x → fits s.params (x.length + 1) = true →
    Answers .addpar s fun t =>
      HasResponse t 0#2 (some (x ++ [decide (x.count true % 2 = 1)])) none none none ∧ SameRest s t ∧ SameHidden s t

/-- 40_parity.md section 2, the spec's inference R72: the result of `ADDPAR` has an even count of 1-bits and one bit more
than the input. -/
def Obligations.AddparResultHasEvenOnes : Prop :=
  ∀ (s : State) (x : Bits), Ready s x → fits s.params (x.length + 1) = true →
    Answers .addpar s fun t => ∃ o, t.out = some o ∧ o.count true % 2 = 0 ∧ t.outLen = some (x.length + 1)

/-- R73: `CHKPAR` tests the count of 1-bits; response, frame, and no failure. -/
def Obligations.ChkparTestsEvenness : Prop :=
  decode 0x1000#16 = .ok .chkpar ∧
  ∀ (s : State) (x : Bits), Ready s x →
    Answers .chkpar s fun t =>
      HasResponse t 0#2 none none none (some (decide (x.count true % 2 = 0))) ∧ SameRest s t ∧ SameHidden s t

/-- R70: the parity operations read nothing of `CFG` and never fail. -/
def Obligations.ParityReadsNoConfiguration : Prop :=
  ∀ (s t : State) (c : Cfg) (i : Instr), i = .addpar ∨ i = .chkpar → exec i s = .next t →
    t.st = 0#2 ∧ exec i { s with cfg := c } = .next { t with cfg := c }

/-- 40_parity.md section 4, the spec's inference R74: `CHKPAR` on the result of `ADDPAR` finds no error. That the host takes
`OUT` as the input in place is the model's choice of host action (log 14, DESIGN CHOICE). -/
def Obligations.ParityRoundTrip : Prop :=
  ∀ (s : State) (x : Bits), Ready s x → fits s.params (x.length + 1) = true →
    ∃ t u v, exec .addpar s = .next t ∧ takeOutput t = .next u ∧ exec .chkpar u = .next v ∧
      v.flag = some true

/-- 40_parity.md section 4, the spec's inference R75: against a frame of even parity, `CHKPAR` finds an error exactly when
an odd number of bits differ. -/
def Obligations.ChkparDetectsOddFlips : Prop :=
  ∀ (s : State) (f g : Bits), f.count true % 2 = 0 → g.length = f.length → Ready s g →
    Answers .chkpar s fun t => t.st = 0#2 ∧ t.flag = some (decide ((xorBits f g).count true % 2 = 0))

/-! ### The CRC divider -/

/-- R84: `DIVREM` returns the remainder of its input, or raises `InvalidInputLength` on one shorter than the polynomial. -/
def Obligations.DivremReturnsRemainder : Prop :=
  decode 0x2000#16 = .ok .divrem ∧
  ∀ (s : State) (x : Bits), Ready s x →
    (s.cfg.poly.length ≤ x.length →
      ∃ r, divRem s.cfg.poly x = some r ∧ r.length = s.cfg.poly.length - 1 ∧
        Answers .divrem s fun t =>
          HasResponse t 0#2 (some r) none none none ∧ SameRest s t ∧ t.sum = s.sum) ∧
    (x.length < s.cfg.poly.length → Answers .divrem s fun t => ErrorEntry s t 1#2)

/-- R86: `GENCRC` returns the remainder of the payload padded with `d` zeros, `d` bits, or raises `InvalidInputLength` on
the empty payload (R88). -/
def Obligations.GencrcReturnsCrc : Prop :=
  decode 0x3000#16 = .ok .gencrc ∧
  ∀ (s : State) (x : Bits), legalPoly s.cfg.poly = true → Ready s x →
    (x ≠ [] → fits s.params (s.cfg.poly.length - 1) = true →
      ∃ r, divRem s.cfg.poly (x ++ List.replicate (s.cfg.poly.length - 1) false) = some r ∧
        r.length = s.cfg.poly.length - 1 ∧
        Answers .gencrc s fun t =>
          HasResponse t 0#2 (some r) none none none ∧ SameRest s t ∧ t.sum = s.sum) ∧
    (x = [] → Answers .gencrc s fun t => ErrorEntry s t 1#2)

/-- R89: `CHKCRC` returns the value of the remainder of the frame, a number of `d` bits, or raises `InvalidInputLength`. -/
def Obligations.ChkcrcReturnsRemainderValue : Prop :=
  decode 0x4000#16 = .ok .chkcrc ∧
  ∀ (s : State) (x : Bits), Ready s x →
    (s.cfg.poly.length ≤ x.length →
      ∃ r, divRem s.cfg.poly x = some r ∧ valOf r < 2 ^ (s.cfg.poly.length - 1) ∧
        Answers .chkcrc s fun t =>
          HasResponse t 0#2 none none (some (valOf r)) none ∧ SameRest s t ∧ t.sum = s.sum) ∧
    (x.length < s.cfg.poly.length → Answers .chkcrc s fun t => ErrorEntry s t 1#2)

/-- 41_crc_divider.md section 2, the spec's inference R83 (c): `DIVIDE` leaves zeros in front and the remainder of
polynomial division over GF(2), `d` bits, behind. -/
def Obligations.DivideComputesRemainder : Prop :=
  ∀ (poly buf w : Bits), legalPoly poly = true → divide poly buf = some w →
    w.take (buf.length - (poly.length - 1)) = List.replicate (buf.length - (poly.length - 1)) false ∧
      (remainder poly w).length = poly.length - 1 ∧
      gf2 (remainder poly w) = gf2 buf %ₘ gf2 poly

/-- 41_crc_divider.md section 2, the spec's inference R83 (a): after the positions `0 .. k-1` the first `k` bits of `WORK`
are zeros. -/
def Obligations.ScanClearsPrefix : Prop :=
  ∀ (poly buf : Bits) (k : Nat), legalPoly poly = true → k + poly.length ≤ buf.length + 1 →
    (scan poly k 0 buf).take k = List.replicate k false

/-- 41_crc_divider.md section 2, the spec's inference R83 (d): `DIVIDE` is linear, and takes zeros to zeros. -/
def Obligations.DivideIsLinear : Prop :=
  ∀ (poly a b ra rb : Bits), legalPoly poly = true → a.length = b.length →
    divRem poly a = some ra → divRem poly b = some rb →
      divRem poly (xorBits a b) = some (xorBits ra rb) ∧
        divRem poly (List.replicate a.length false) = some (List.replicate (poly.length - 1) false)

/-- 41_crc_divider.md section 2, the spec's inference R83 (e): leading zeros do not change the remainder. -/
def Obligations.LeadingZerosKeepRemainder : Prop :=
  ∀ (poly a : Bits) (t : Nat), legalPoly poly = true → poly.length ≤ a.length →
    divRem poly (List.replicate t false ++ a) = divRem poly a

/-- 41_crc_divider.md section 6, the spec's inference R90: the frame made of a payload of at least one bit and its CRC
(R63) passes `CHKCRC`. That the host forms the frame in `IN` is the model's choice of host action (log 14, DESIGN
CHOICE). -/
def Obligations.CrcRoundTrip : Prop :=
  ∀ (s : State) (x : Bits), legalPoly s.cfg.poly = true → Ready s x → x ≠ [] →
    fits s.params (x.length + (s.cfg.poly.length - 1)) = true →
      ∃ t u v, exec .gencrc s = .next t ∧ formFrameFrom t = .next u ∧ exec .chkcrc u = .next v ∧
        v.st = 0#2 ∧ v.val = some 0

/-- 41_crc_divider.md section 6, the spec's inference R91: `VAL` of a corrupted valid frame depends on the error pattern
alone. -/
def Obligations.ChkcrcSeesOnlyErrorPattern : Prop :=
  ∀ (s : State) (f e : Bits), legalPoly s.cfg.poly = true → f.length = e.length →
    divRem s.cfg.poly f = some (List.replicate (s.cfg.poly.length - 1) false) → Ready s (xorBits f e) →
      ∃ r, divRem s.cfg.poly e = some r ∧
        Answers .chkcrc s fun t => t.st = 0#2 ∧ t.val = some (valOf r)

/-- 41_crc_divider.md section 6, the spec's inference R92: with a generator whose constant term is 1, every non-zero error
inside a window of at most `d` positions of a valid frame is detected. -/
def Obligations.BurstsAreDetected : Prop :=
  ∀ (s : State) (f burst : Bits) (a c : Nat), legalPoly s.cfg.poly = true →
    s.cfg.poly.getLast? = some true →
    divRem s.cfg.poly f = some (List.replicate (s.cfg.poly.length - 1) false) →
    burst.length ≤ s.cfg.poly.length - 1 → true ∈ burst → a + burst.length + c = f.length →
    Ready s (xorBits f (List.replicate a false ++ burst ++ List.replicate c false)) →
      Answers .chkcrc s fun t => t.st = 0#2 ∧ ∃ v, t.val = some v ∧ v ≠ 0

/-! ### The checksum -/

/-- R107: `CALCSUM` and `CALCSUM.D` return the complement of the folded sum of the padded payload, `W` bits, or raise
`InvalidWidth`. -/
def Obligations.CalcsumReturnsChecksum : Prop :=
  (∀ n < 256, decode (BitVec.ofNat 16 (0x5000 + n)) = .ok (.calcsum n)) ∧ decode 0x5800#16 = .ok .calcsumD ∧
  (∀ (s : State) (x : Bits) (n : Nat), Ready s x → Accepted s.params.widthPolicy n → fits s.params n = true →
    ∀ i, i = .calcsum n ∨ (i = .calcsumD ∧ s.cfg.defw = n) →
      Answers i s fun t =>
        HasResponse t 0#2 (some (bitsOf n (2 ^ n - 1 - fold (sumw (pad x n) n) n))) none none none ∧
          SameRest s t ∧ t.work = s.work) ∧
  ∀ (s : State) (x : Bits) (w : Int), Ready s x → ¬ Accepted s.params.widthPolicy w →
    ∀ i, (∃ wf : Nat, w = wf ∧ i = .calcsum wf) ∨ (i = .calcsumD ∧ s.cfg.defw = w) →
      Answers i s fun t => ErrorEntry s t 2#2

/-- R110: `ADDSUM` and `ADDSUM.D` return the payload, unpadded, followed by its checksum, or raise `InvalidWidth`. -/
def Obligations.AddsumAppendsChecksum : Prop :=
  (∀ n < 256, decode (BitVec.ofNat 16 (0x6000 + n)) = .ok (.addsum n)) ∧ decode 0x6800#16 = .ok .addsumD ∧
  (∀ (s : State) (x : Bits) (n : Nat), Ready s x → Accepted s.params.widthPolicy n →
    fits s.params (x.length + n) = true →
    ∀ i, i = .addsum n ∨ (i = .addsumD ∧ s.cfg.defw = n) →
      Answers i s fun t =>
        HasResponse t 0#2 (some (x ++ bitsOf n (2 ^ n - 1 - fold (sumw (pad x n) n) n))) none none none ∧
          SameRest s t ∧ t.work = s.work) ∧
  ∀ (s : State) (x : Bits) (w : Int), Ready s x → ¬ Accepted s.params.widthPolicy w →
    ∀ i, (∃ wf : Nat, w = wf ∧ i = .addsum wf) ∨ (i = .addsumD ∧ s.cfg.defw = w) →
      Answers i s fun t => ErrorEntry s t 2#2

/-- R113: `VERSUM` and `VERSUM.D` answer whether the folded total of the data portion's words and the received checksum is
the all-ones word, or raise `InvalidWidth`. -/
def Obligations.VersumTestsAllOnes : Prop :=
  (∀ n < 256, decode (BitVec.ofNat 16 (0x7000 + n)) = .ok (.versum n)) ∧ decode 0x7800#16 = .ok .versumD ∧
  (∀ (s : State) (x : Bits) (n : Nat), Ready s x → Accepted s.params.widthPolicy n →
    ∀ i, i = .versum n ∨ (i = .versumD ∧ s.cfg.defw = n) →
      Answers i s fun t =>
        HasResponse t 0#2 none none none
          (some (decide (fold (sumw (pad (x.take (x.length - n)) n) n + valOf (x.drop (x.length - n))) n
            = 2 ^ n - 1))) ∧
          SameRest s t ∧ t.work = s.work) ∧
  ∀ (s : State) (x : Bits) (w : Int), Ready s x → ¬ Accepted s.params.widthPolicy w →
    ∀ i, (∃ wf : Nat, w = wf ∧ i = .versum wf) ∨ (i = .versumD ∧ s.cfg.defw = w) →
      Answers i s fun t => ErrorEntry s t 2#2

/-- R116: `VERSUMS` and `VERSUMS.D` return the recomputed and the received checksum and whether they are equal bit for bit,
or raise `InvalidWidth`. -/
def Obligations.VersumsComparesChecksums : Prop :=
  (∀ n < 256, decode (BitVec.ofNat 16 (0x8000 + n)) = .ok (.versums n)) ∧ decode 0x8800#16 = .ok .versumsD ∧
  (∀ (s : State) (x : Bits) (n : Nat), Ready s x → Accepted s.params.widthPolicy n → fits s.params n = true →
    ∀ i, i = .versums n ∨ (i = .versumsD ∧ s.cfg.defw = n) →
      Answers i s fun t =>
        HasResponse t 0#2 (some (checksum (x.take (x.length - n)) n)) (some (x.drop (x.length - n))) none
          (some (decide (x.drop (x.length - n) = checksum (x.take (x.length - n)) n))) ∧
          SameRest s t ∧ t.work = s.work) ∧
  ∀ (s : State) (x : Bits) (w : Int), Ready s x → ¬ Accepted s.params.widthPolicy w →
    ∀ i, (∃ wf : Nat, w = wf ∧ i = .versums wf) ∨ (i = .versumsD ∧ s.cfg.defw = w) →
      Answers i s fun t => ErrorEntry s t 2#2

/-- R100: a width that is not positive raises `InvalidWidth` in every checksum operation, whatever the input, and nothing
else happens. -/
def Obligations.NonPositiveWidthRaisesInvalidWidth : Prop :=
  ∀ (s : State) (x : Bits), Ready s x →
    (∀ i, i = .calcsum 0 ∨ i = .addsum 0 ∨ i = .versum 0 ∨ i = .versums 0 →
      Answers i s fun t => ErrorEntry s t 2#2) ∧
    (s.cfg.defw ≤ 0 → ∀ i, i = .calcsumD ∨ i = .addsumD ∨ i = .versumD ∨ i = .versumsD →
      Answers i s fun t => ErrorEntry s t 2#2)

/-- R101: under `strict` a positive width other than 8, 16, 32 raises `InvalidWidth`; under `generic` no positive width
does. -/
def Obligations.WidthPolicyDecidesOtherWidths : Prop :=
  (∀ (s : State) (x : Bits) (n : Nat), Ready s x → s.params.widthPolicy = .strict → 0 < n →
    n ≠ 8 → n ≠ 16 → n ≠ 32 →
    ∀ i, i = .calcsum n ∨ i = .addsum n ∨ i = .versum n ∨ i = .versums n ∨
        (s.cfg.defw = n ∧ (i = .calcsumD ∨ i = .addsumD ∨ i = .versumD ∨ i = .versumsD)) →
      Answers i s fun t => ErrorEntry s t 2#2) ∧
  ∀ (s : State) (x : Bits) (n : Nat), Ready s x → s.params.widthPolicy = .generic → 0 < n →
    s.params.maxBits = none →
    ∀ i, i = .calcsum n ∨ i = .addsum n ∨ i = .versum n ∨ i = .versums n ∨
        (s.cfg.defw = n ∧ (i = .calcsumD ∨ i = .addsumD ∨ i = .versumD ∨ i = .versumsD)) →
      Answers i s fun t => t.st = 0#2

/-- R102: `PAD` adds fewer than `W` zeros at the right, up to a multiple of `W`, and none where the length is one. -/
def Obligations.PadFillsLastWord : Prop :=
  ∀ (s : Bits) (n : Nat), 1 ≤ n →
    (∃ p, p < n ∧ p = (n - s.length % n) % n ∧ pad s n = s ++ List.replicate p false) ∧
      n ∣ (pad s n).length ∧ (n ∣ s.length → pad s n = s)

/-- R104: `FOLD` is the loop: a value that fits is returned, any other goes through one more pass. -/
def Obligations.FoldRepeatsUntilFits : Prop :=
  ∀ (v n : Nat), 1 ≤ n →
    fold v n = (if 2 ^ n ≤ v then fold (v % 2 ^ n + v / 2 ^ n) n else v) ∧ fold v n ≤ 2 ^ n - 1

/-- 42_checksum.md section 2, the spec's inference R105: a pass makes the value smaller; `FOLD` keeps it modulo `M`; 0 comes
only from 0, `M` exactly from the positive multiples of `M`, and a value in `0 .. M` is kept. -/
def Obligations.FoldIsReductionModuloM : Prop :=
  ∀ (v n : Nat), 1 ≤ n →
    (2 ^ n ≤ v → v % 2 ^ n + v / 2 ^ n < v) ∧
      fold v n ≡ v [MOD 2 ^ n - 1] ∧
      (fold v n = 0 ↔ v = 0) ∧
      (fold v n = 2 ^ n - 1 ↔ 0 < v ∧ 2 ^ n - 1 ∣ v) ∧
      (v ≤ 2 ^ n - 1 → fold v n = v)

/-- 42_checksum.md section 2, the spec's inference R106: folding at every addition gives the same result as folding once at
the end. -/
def Obligations.FoldAtEveryAddition : Prop :=
  ∀ (s : Bits) (n : Nat), 1 ≤ n → n ∣ s.length → foldEach s n = fold (sumw s n) n

/-- R103: for `W` of at least 1 and a sequence of whole words, `SUMW` is the sum of the values of its words, the word at index
`j` being `s[j*W .. (j+1)*W)` read first bit most significant; it is 0 for no words, and one more word at the end adds
that word's value. -/
def Obligations.SumwAddsEachWordOnce : Prop :=
  ∀ (s : Bits) (n : Nat), 1 ≤ n → n ∣ s.length →
    sumw s n = ∑ j ∈ Finset.range (s.length / n), valOf ((s.drop (j * n)).take n) ∧
      sumw [] n = 0 ∧
      ∀ t : Bits, t.length = n → sumw (s ++ t) n = sumw s n + valOf t

/-- R108: the folded sum and the checksum's value add up to the all-ones word; the two are spelled out as R107 gives them. -/
def Obligations.SumAndChecksumAreComplements : Prop :=
  ∀ (x : Bits) (n : Nat), 1 ≤ n →
    foldedSum x n = fold (sumw (pad x n) n) n ∧
      checksum x n = bitsOf n (2 ^ n - 1 - foldedSum x n) ∧
      foldedSum x n + valOf (checksum x n) = 2 ^ n - 1

/-- 42_checksum.md section 5, the spec's inference R114: both verifiers answer "invalid", without an error, to a frame
shorter than `W`. -/
def Obligations.ShortFramesAreInvalid : Prop :=
  ∀ (s : State) (x : Bits) (n : Nat), Ready s x → Accepted s.params.widthPolicy n → x.length < n →
    (Answers (.versum n) s fun t => t.st = 0#2 ∧ t.flag = some false) ∧
      (fits s.params n = true → Answers (.versums n) s fun t => t.st = 0#2 ∧ t.flag = some false)

/-- 42_checksum.md section 5, the spec's inference R117: the two verifiers disagree exactly on frames whose data portion
folds to all ones and whose received checksum is all ones; there `VERSUM` accepts and `VERSUMS` does not. -/
def Obligations.VerifiersDisagreeOnlyOnAllOnes : Prop :=
  ∀ (s : State) (x : Bits) (n : Nat), Ready s x → Accepted s.params.widthPolicy n → n ≤ x.length →
    ∃ t u, exec (.versum n) s = .next t ∧ exec (.versums n) s = .next u ∧
      (t.flag ≠ u.flag ↔
        foldedSum (x.take (x.length - n)) n = 2 ^ n - 1 ∧
          x.drop (x.length - n) = List.replicate n true) ∧
      (t.flag ≠ u.flag → t.flag = some true ∧ u.flag = some false)

/-- 42_checksum.md section 6, the spec's inference R118: both verifiers accept what `ADDSUM` returns, for every payload and
every accepted width. That the host takes `OUT` as the input in place is the model's choice of host action (log 14, DESIGN
CHOICE). -/
def Obligations.ChecksumRoundTrip : Prop :=
  ∀ (s : State) (x : Bits) (n : Nat), Ready s x → Accepted s.params.widthPolicy n →
    fits s.params (x.length + n) = true →
      ∃ t u v w, exec (.addsum n) s = .next t ∧ takeOutput t = .next u ∧
        exec (.versum n) u = .next v ∧ v.flag = some true ∧
        exec (.versums n) u = .next w ∧ w.flag = some true

/-- 42_checksum.md section 6, the spec's inference R119: for `W` of at least 2, flipping any one bit of the frame `ADDSUM`
returns makes `VERSUM` answer "invalid" (at `W = 1` no flip is detected). That the host takes `OUT` as the input and flips
it in place are the model's choices of host actions (log 14, DESIGN CHOICE). -/
def Obligations.SingleFlipsAreDetected : Prop :=
  ∀ (s : State) (x : Bits) (n j : Nat), Ready s x → 2 ≤ n → Accepted s.params.widthPolicy n →
    fits s.params (x.length + n) = true → j < x.length + n →
      ∃ t u u' v, exec (.addsum n) s = .next t ∧ takeOutput t = .next u ∧ flipInput j u = .next u' ∧
        exec (.versum n) u' = .next v ∧ v.st = 0#2 ∧ v.flag = some false

/-! ### Sequences and buffers -/

/-- R9: the integer reading of a sequence, and the one sequence of `N` bits that spells a number. -/
def Obligations.IntegerReadingOfBits : Prop :=
  (∀ s : Bits, valOf s = ∑ i ∈ Finset.range s.length, (s.getD i false).toNat * 2 ^ (s.length - 1 - i)) ∧
  ∀ (n v : Nat), v < 2 ^ n → ∀ s : Bits, (s.length = n ∧ valOf s = v) ↔ s = bitsOf n v

/-- 20_memory.md section 2, the spec's inference in R34: a word of width `2W` is two words of width `W`, high half first. -/
def Obligations.WideWordIsTwoNarrowWords : Prop :=
  ∀ (s : Bits) (n j : Nat), (j + 1) * (2 * n) ≤ s.length →
    word s (2 * n) j = 2 ^ n * word s n (2 * j) + word s n (2 * j + 1)

/-- 20_memory.md section 1 (R31, R32): what was written is read back, every other bit and the length stay. -/
def Obligations.WriteChangesOnlyItsWindow : Prop :=
  ∀ (buf v : Bits) (a : Nat), a + v.length ≤ buf.length →
    memRead (memWrite buf a v) a v.length = v ∧ (memWrite buf a v).length = buf.length ∧
      ∀ j, j < a ∨ a + v.length ≤ j → (memWrite buf a v)[j]? = buf[j]?

/-! ### Every operation -/

/-- R132: exactly when an operation ends with each error. -/
def Obligations.ErrorCauses : Prop :=
  ∀ (i : Instr) (s t : State) (x : Bits), legalPoly s.cfg.poly = true → Ready s x → exec i s = .next t →
    (t.st = 1#2 ↔ LengthErrorCause s.cfg.poly x i) ∧
      (t.st = 2#2 ↔ WidthErrorCause s.params.widthPolicy s.cfg.defw i)

/-- R133: a detected transmission error is a result beside `ST = 0`, and only the four operations report one. -/
def Obligations.DetectedErrorsAreResults : Prop :=
  ∀ (i : Instr) (s t : State), exec i s = .next t →
    (t.flag = some false → t.st = 0#2 ∧
      (i = .chkpar ∨ (∃ n, i = .versum n) ∨ i = .versumD ∨ (∃ n, i = .versums n) ∨ i = .versumsD)) ∧
    (∀ v, t.val = some v → v ≠ 0 → t.st = 0#2 ∧ i = .chkcrc)

/-- R18: which registers hold values after an operation that ends with `ST = 0`, within their widths, and that none does
after any other. -/
def Obligations.ResultRegistersOfEachOperation : Prop :=
  ∀ (i : Instr) (s t : State), exec i s = .next t →
    (t.st = 0#2 →
      t.out.isSome = writesOut i ∧ t.out2.isSome = writesOut2 i ∧ t.val.isSome = writesVal i ∧
        t.flag.isSome = writesFlag i ∧ t.outLen = t.out.map List.length ∧
        t.out2Len = t.out2.map List.length ∧ bufFits s.params t.out = true ∧ bufFits s.params t.out2 = true ∧
        ∀ v, t.val = some v → v < 2 ^ (s.cfg.poly.length - 1)) ∧
    (t.st ≠ 0#2 → NoResult t) ∧ t.st ≠ 3#2

/-- R136: an error writes its code and nothing else, and leaves no result. -/
def Obligations.ErrorEntryLeavesNoResult : Prop :=
  ∀ (i : Instr) (s t : State), exec i s = .next t → t.st ≠ 0#2 →
    ErrorEntry s t 1#2 ∨ ErrorEntry s t 2#2

/-- R15: the response is a function of the configuration, the command and the input alone. The implementation's parameters
are part of the instance. -/
def Obligations.ResponseIgnoresHistory : Prop :=
  ∀ (i : Instr) (s t : State), t.cfg = s.cfg → t.params = s.params → t.inBuf = s.inBuf → t.inLen = s.inLen →
    (∀ s', exec i s = .next s' → ∃ t', exec i t = .next t' ∧ SameResponse s' t') ∧
      (∀ f, exec i s = .fault f → exec i t = .fault f) ∧
      (∀ q, exec i s = .refused q → exec i t = .refused q)

/-- R39: issuing the same command again gives the same response, at once and after any other command, and reading a
register changes nothing. -/
def Obligations.CommandsAreIdempotent : Prop :=
  (∀ (i : Instr) (s t : State), exec i s = .next t → exec i t = .next t) ∧
  (∀ (i j : Instr) (s t u : State), exec i s = .next t → exec j s = .next u →
    ∃ v, exec i u = .next v ∧ SameResponse t v) ∧
  ∀ (r : Reg) (s t : State), readRegister r s = .next t → t = s

/-- 10_state.md sections 2, 4 and 7 and 20_memory.md section 1: the frame of every operation. `CFG`, the parameters, `CMD`,
`IN` and `IN_LEN` are never written; `WORK` only by the divider, `SUM` only by the checksum. -/
def Obligations.OperationsKeepTheRest : Prop :=
  ∀ (i : Instr) (s t : State), exec i s = .next t →
    SameRest s t ∧ (usesDivider i = false → t.work = s.work) ∧ (usesSum i = false → t.sum = s.sum)

/-- 10_state.md section 2 (R11): no step writes the configuration or the parameters; the only step that changes the
configuration is the creation of another instance (70_reset_and_hazards.md R160; log 12). -/
def Obligations.ConfigurationIsFixed : Prop :=
  ∀ (s t : State), step s = .next t →
    t.params = s.params ∧
      (t.cfg = s.cfg ∨ ∃ poly defw rest, s.pending = .create poly defw :: rest ∧ t.cfg = ⟨poly, defw⟩)

/-- R33: a command whose input or result exceeds `MAX_BITS` has no step, and with `MAX_BITS` unbounded every command is
admitted. -/
def Obligations.OversizeCommandHasNoStep : Prop :=
  (∀ (i : Instr) (s : State), fits s.params s.inLen = false → exec i s = .refused .notAdmitted) ∧
  (∀ (s : State) (x : Bits), Ready s x →
    (fits s.params (x.length + 1) = false → exec .addpar s = .refused .notAdmitted) ∧
    (legalPoly s.cfg.poly = true → x ≠ [] → fits s.params (s.cfg.poly.length - 1) = false →
      exec .gencrc s = .refused .notAdmitted) ∧
    ∀ n : Nat, Accepted s.params.widthPolicy n →
      (fits s.params n = false → ∀ i, i = .calcsum n ∨ i = .versums n ∨
          (s.cfg.defw = n ∧ (i = .calcsumD ∨ i = .versumsD)) → exec i s = .refused .notAdmitted) ∧
      (fits s.params (x.length + n) = false → ∀ i, i = .addsum n ∨ (i = .addsumD ∧ s.cfg.defw = n) →
        exec i s = .refused .notAdmitted)) ∧
  ∀ (i : Instr) (s : State) (x : Bits), Ready s x → s.params.maxBits = none → ∃ t, exec i s = .next t

/-! ### The machine and its host -/

/-- 10_state.md and 20_memory.md: every step from a legal state, by the block or by the host, leads to a legal state. -/
def Obligations.StepKeepsStateLegal : Prop :=
  ∀ (s t : State), Legal s → step s = .next t → Legal t

/-- The reset state is legal. It holds the generator the model chose (log 2). -/
def Obligations.ResetStateIsLegal : Prop := Legal State.reset

/-- 10_state.md section 8 (R26): after reset the configuration holds the instance's parameters, a 33-bit polynomial and
default width 16. That every other register then holds zero, and a buffer the empty sequence, is the model's choice (log 1,
DESIGN CHOICE): R26 gives them no value. -/
def Obligations.ResetHoldsParametersAndZeros : Prop :=
  State.reset.cfg.poly.length = 33 ∧ State.reset.cfg.defw = 16 ∧ RegistersAtReset State.reset

/-- 70_reset_and_hazards.md section 1 (R160) and 10_state.md section 2 (R12): creating an instance with a legal
configuration leaves that configuration and every other register as at reset; another configuration is refused. The
registers' reset values are the model's choice (log 1, DESIGN CHOICE), and so is that the parameters and the host's coming
actions stay (log 12, DESIGN CHOICE). -/
def Obligations.CreationGivesFreshInstance : Prop :=
  ∀ (s : State) (poly : Bits) (defw : Int) (rest : List HostAction), s.pending = .create poly defw :: rest →
    (poly[0]? = some true → 2 ≤ poly.length →
      ∃ t, step s = .next t ∧ t.cfg = ⟨poly, defw⟩ ∧ t.params = s.params ∧ RegistersAtReset t ∧ t.pending = rest) ∧
    (poly[0]? ≠ some true ∨ poly.length < 2 → step s = .refused .illegalConfiguration)

/-- 10_state.md section 8 (R25): reading a register that a command has invalidated is a fault of the host. Any other read
goes on and changes nothing: for a result register that is 20_memory.md section 4 (R39). That the host may also read back
`CMD`, `IN` and `IN_LEN` (log 19) and that no read of a fresh instance faults (log 1) is the model's choice (DESIGN
CHOICE). -/
def Obligations.ReadingInvalidatedRegisterFaults : Prop :=
  (∀ (s : State) (r : Reg), (s.valueIn r = none → readRegister r s = .fault (.invalidated r)) ∧
    (s.valueIn r ≠ none → readRegister r s = .next s)) ∧
  ∀ (r : Reg) (c : Cfg) (p : Params) (l : List HostAction),
    readRegister r (State.fresh c p l) = .next (State.fresh c p l)

/-- 10_state.md section 8 and 60_exceptions.md section 4: a step faults only where the host reads a result register that
holds no value; no command faults, in any state. That a register untouched since reset holds a value is the model's choice
(log 1, DESIGN CHOICE). -/
def Obligations.FaultsMeanInvalidatedResult : Prop :=
  (∀ (s : State) (r : Reg), step s = .fault (.invalidated r) →
    r ∈ [Reg.out, .outLen, .out2, .out2Len, .val, .flag] ∧ s.valueIn r = none ∧
      ∃ a rest, s.pending = a :: rest ∧ (a = .read r ∨ (r = .out ∧ (a = .takeOut ∨ a = .formFrame)))) ∧
  (∀ (i : Instr) (s : State) (f : Fault), exec i s ≠ .fault f) ∧
  ∀ (s : State) (f : Fault), issueCommand s ≠ .fault f

/-- 30_encoding.md section B.5 (R63): after `GENCRC` with `ST = 0`, the host's `FRAMECRC` forms the frame `s ++ OUT`. That the
frame becomes `IN` and `IN_LEN`, and that another `ST` changes nothing, is the model's choice (log 14, DESIGN CHOICE): R63
says only that the frame is formed if `ST = 0`. -/
def Obligations.FrameCrcFormsTheFrame : Prop :=
  ∀ (s t : State) (x : Bits), Ready s x → exec .gencrc s = .next t →
    (t.st = 0#2 → ∃ c, t.out = some c ∧
      (fits s.params (x.length + c.length) = true →
        formFrameFrom t = .next ((t.setInBuf (x ++ c)).setInLen (x.length + c.length)))) ∧
    (t.st ≠ 0#2 → formFrameFrom t = .next t)

/-- R149: text is 8 bits a character, most significant first; decoding drops a trailing partial byte and skips a byte whose
value is zero. -/
def Obligations.TextCodecSkipsZeroBytes : Prop :=
  (∀ c : Byte, encodeText [c] = (List.range 8).map fun i => c.getLsbD (7 - i)) ∧
  (∀ a b : List Byte, encodeText (a ++ b) = encodeText a ++ encodeText b) ∧
  ∀ (text : List Byte) (tail : Bits), tail.length < 8 →
    decodeText (encodeText text ++ tail) = text.filter fun c => decide (c ≠ 0#8)
end

