-- ==== Sys2Proof/Laws/State.lean ====
section
/-! SUPPORT. What each update of the state does to each field, one lemma each, so that no proof unfolds an update. -/

namespace Sys2Proof.Machine

@[simp] theorem State.setResponse_cfg (s : State) (code : StatusCode) (r : Response) :
    (s.setResponse code r).cfg = s.cfg := rfl
@[simp] theorem State.setResponse_params (s : State) (code : StatusCode) (r : Response) :
    (s.setResponse code r).params = s.params := rfl
@[simp] theorem State.setResponse_cmd (s : State) (code : StatusCode) (r : Response) :
    (s.setResponse code r).cmd = s.cmd := rfl
@[simp] theorem State.setResponse_inBuf (s : State) (code : StatusCode) (r : Response) :
    (s.setResponse code r).inBuf = s.inBuf := rfl
@[simp] theorem State.setResponse_inLen (s : State) (code : StatusCode) (r : Response) :
    (s.setResponse code r).inLen = s.inLen := rfl
@[simp] theorem State.setResponse_st (s : State) (code : StatusCode) (r : Response) :
    (s.setResponse code r).st = code := rfl
@[simp] theorem State.setResponse_out (s : State) (code : StatusCode) (r : Response) :
    (s.setResponse code r).out = r.out := rfl
@[simp] theorem State.setResponse_outLen (s : State) (code : StatusCode) (r : Response) :
    (s.setResponse code r).outLen = r.out.map List.length := rfl
@[simp] theorem State.setResponse_out2 (s : State) (code : StatusCode) (r : Response) :
    (s.setResponse code r).out2 = r.out2 := rfl
@[simp] theorem State.setResponse_out2Len (s : State) (code : StatusCode) (r : Response) :
    (s.setResponse code r).out2Len = r.out2.map List.length := rfl
@[simp] theorem State.setResponse_val (s : State) (code : StatusCode) (r : Response) :
    (s.setResponse code r).val = r.val := rfl
@[simp] theorem State.setResponse_flag (s : State) (code : StatusCode) (r : Response) :
    (s.setResponse code r).flag = r.flag := rfl
@[simp] theorem State.setResponse_work (s : State) (code : StatusCode) (r : Response) :
    (s.setResponse code r).work = s.work := rfl
@[simp] theorem State.setResponse_sum (s : State) (code : StatusCode) (r : Response) :
    (s.setResponse code r).sum = s.sum := rfl
@[simp] theorem State.setResponse_pending (s : State) (code : StatusCode) (r : Response) :
    (s.setResponse code r).pending = s.pending := rfl

@[simp] theorem State.setWork_cfg (s : State) (w : Bits) :
    (s.setWork w).cfg = s.cfg := rfl
@[simp] theorem State.setWork_params (s : State) (w : Bits) :
    (s.setWork w).params = s.params := rfl
@[simp] theorem State.setWork_cmd (s : State) (w : Bits) :
    (s.setWork w).cmd = s.cmd := rfl
@[simp] theorem State.setWork_inBuf (s : State) (w : Bits) :
    (s.setWork w).inBuf = s.inBuf := rfl
@[simp] theorem State.setWork_inLen (s : State) (w : Bits) :
    (s.setWork w).inLen = s.inLen := rfl
@[simp] theorem State.setWork_st (s : State) (w : Bits) :
    (s.setWork w).st = s.st := rfl
@[simp] theorem State.setWork_out (s : State) (w : Bits) :
    (s.setWork w).out = s.out := rfl
@[simp] theorem State.setWork_outLen (s : State) (w : Bits) :
    (s.setWork w).outLen = s.outLen := rfl
@[simp] theorem State.setWork_out2 (s : State) (w : Bits) :
    (s.setWork w).out2 = s.out2 := rfl
@[simp] theorem State.setWork_out2Len (s : State) (w : Bits) :
    (s.setWork w).out2Len = s.out2Len := rfl
@[simp] theorem State.setWork_val (s : State) (w : Bits) :
    (s.setWork w).val = s.val := rfl
@[simp] theorem State.setWork_flag (s : State) (w : Bits) :
    (s.setWork w).flag = s.flag := rfl
@[simp] theorem State.setWork_work (s : State) (w : Bits) :
    (s.setWork w).work = w := rfl
@[simp] theorem State.setWork_sum (s : State) (w : Bits) :
    (s.setWork w).sum = s.sum := rfl
@[simp] theorem State.setWork_pending (s : State) (w : Bits) :
    (s.setWork w).pending = s.pending := rfl

@[simp] theorem State.setSum_cfg (s : State) (n : Nat) :
    (s.setSum n).cfg = s.cfg := rfl
@[simp] theorem State.setSum_params (s : State) (n : Nat) :
    (s.setSum n).params = s.params := rfl
@[simp] theorem State.setSum_cmd (s : State) (n : Nat) :
    (s.setSum n).cmd = s.cmd := rfl
@[simp] theorem State.setSum_inBuf (s : State) (n : Nat) :
    (s.setSum n).inBuf = s.inBuf := rfl
@[simp] theorem State.setSum_inLen (s : State) (n : Nat) :
    (s.setSum n).inLen = s.inLen := rfl
@[simp] theorem State.setSum_st (s : State) (n : Nat) :
    (s.setSum n).st = s.st := rfl
@[simp] theorem State.setSum_out (s : State) (n : Nat) :
    (s.setSum n).out = s.out := rfl
@[simp] theorem State.setSum_outLen (s : State) (n : Nat) :
    (s.setSum n).outLen = s.outLen := rfl
@[simp] theorem State.setSum_out2 (s : State) (n : Nat) :
    (s.setSum n).out2 = s.out2 := rfl
@[simp] theorem State.setSum_out2Len (s : State) (n : Nat) :
    (s.setSum n).out2Len = s.out2Len := rfl
@[simp] theorem State.setSum_val (s : State) (n : Nat) :
    (s.setSum n).val = s.val := rfl
@[simp] theorem State.setSum_flag (s : State) (n : Nat) :
    (s.setSum n).flag = s.flag := rfl
@[simp] theorem State.setSum_work (s : State) (n : Nat) :
    (s.setSum n).work = s.work := rfl
@[simp] theorem State.setSum_sum (s : State) (n : Nat) :
    (s.setSum n).sum = n := rfl
@[simp] theorem State.setSum_pending (s : State) (n : Nat) :
    (s.setSum n).pending = s.pending := rfl

@[simp] theorem State.setCmd_cfg (s : State) (w : CommandWord) :
    (s.setCmd w).cfg = s.cfg := rfl
@[simp] theorem State.setCmd_params (s : State) (w : CommandWord) :
    (s.setCmd w).params = s.params := rfl
@[simp] theorem State.setCmd_cmd (s : State) (w : CommandWord) :
    (s.setCmd w).cmd = w := rfl
@[simp] theorem State.setCmd_inBuf (s : State) (w : CommandWord) :
    (s.setCmd w).inBuf = s.inBuf := rfl
@[simp] theorem State.setCmd_inLen (s : State) (w : CommandWord) :
    (s.setCmd w).inLen = s.inLen := rfl
@[simp] theorem State.setCmd_st (s : State) (w : CommandWord) :
    (s.setCmd w).st = s.st := rfl
@[simp] theorem State.setCmd_out (s : State) (w : CommandWord) :
    (s.setCmd w).out = s.out := rfl
@[simp] theorem State.setCmd_outLen (s : State) (w : CommandWord) :
    (s.setCmd w).outLen = s.outLen := rfl
@[simp] theorem State.setCmd_out2 (s : State) (w : CommandWord) :
    (s.setCmd w).out2 = s.out2 := rfl
@[simp] theorem State.setCmd_out2Len (s : State) (w : CommandWord) :
    (s.setCmd w).out2Len = s.out2Len := rfl
@[simp] theorem State.setCmd_val (s : State) (w : CommandWord) :
    (s.setCmd w).val = s.val := rfl
@[simp] theorem State.setCmd_flag (s : State) (w : CommandWord) :
    (s.setCmd w).flag = s.flag := rfl
@[simp] theorem State.setCmd_work (s : State) (w : CommandWord) :
    (s.setCmd w).work = s.work := rfl
@[simp] theorem State.setCmd_sum (s : State) (w : CommandWord) :
    (s.setCmd w).sum = s.sum := rfl
@[simp] theorem State.setCmd_pending (s : State) (w : CommandWord) :
    (s.setCmd w).pending = s.pending := rfl

@[simp] theorem State.setInBuf_cfg (s : State) (b : Bits) :
    (s.setInBuf b).cfg = s.cfg := rfl
@[simp] theorem State.setInBuf_params (s : State) (b : Bits) :
    (s.setInBuf b).params = s.params := rfl
@[simp] theorem State.setInBuf_cmd (s : State) (b : Bits) :
    (s.setInBuf b).cmd = s.cmd := rfl
@[simp] theorem State.setInBuf_inBuf (s : State) (b : Bits) :
    (s.setInBuf b).inBuf = memWrite s.inBuf 0 b := rfl
@[simp] theorem State.setInBuf_inLen (s : State) (b : Bits) :
    (s.setInBuf b).inLen = s.inLen := rfl
@[simp] theorem State.setInBuf_st (s : State) (b : Bits) :
    (s.setInBuf b).st = s.st := rfl
@[simp] theorem State.setInBuf_out (s : State) (b : Bits) :
    (s.setInBuf b).out = s.out := rfl
@[simp] theorem State.setInBuf_outLen (s : State) (b : Bits) :
    (s.setInBuf b).outLen = s.outLen := rfl
@[simp] theorem State.setInBuf_out2 (s : State) (b : Bits) :
    (s.setInBuf b).out2 = s.out2 := rfl
@[simp] theorem State.setInBuf_out2Len (s : State) (b : Bits) :
    (s.setInBuf b).out2Len = s.out2Len := rfl
@[simp] theorem State.setInBuf_val (s : State) (b : Bits) :
    (s.setInBuf b).val = s.val := rfl
@[simp] theorem State.setInBuf_flag (s : State) (b : Bits) :
    (s.setInBuf b).flag = s.flag := rfl
@[simp] theorem State.setInBuf_work (s : State) (b : Bits) :
    (s.setInBuf b).work = s.work := rfl
@[simp] theorem State.setInBuf_sum (s : State) (b : Bits) :
    (s.setInBuf b).sum = s.sum := rfl
@[simp] theorem State.setInBuf_pending (s : State) (b : Bits) :
    (s.setInBuf b).pending = s.pending := rfl

@[simp] theorem State.setInLen_cfg (s : State) (n : Nat) :
    (s.setInLen n).cfg = s.cfg := rfl
@[simp] theorem State.setInLen_params (s : State) (n : Nat) :
    (s.setInLen n).params = s.params := rfl
@[simp] theorem State.setInLen_cmd (s : State) (n : Nat) :
    (s.setInLen n).cmd = s.cmd := rfl
@[simp] theorem State.setInLen_inBuf (s : State) (n : Nat) :
    (s.setInLen n).inBuf = s.inBuf := rfl
@[simp] theorem State.setInLen_inLen (s : State) (n : Nat) :
    (s.setInLen n).inLen = n := rfl
@[simp] theorem State.setInLen_st (s : State) (n : Nat) :
    (s.setInLen n).st = s.st := rfl
@[simp] theorem State.setInLen_out (s : State) (n : Nat) :
    (s.setInLen n).out = s.out := rfl
@[simp] theorem State.setInLen_outLen (s : State) (n : Nat) :
    (s.setInLen n).outLen = s.outLen := rfl
@[simp] theorem State.setInLen_out2 (s : State) (n : Nat) :
    (s.setInLen n).out2 = s.out2 := rfl
@[simp] theorem State.setInLen_out2Len (s : State) (n : Nat) :
    (s.setInLen n).out2Len = s.out2Len := rfl
@[simp] theorem State.setInLen_val (s : State) (n : Nat) :
    (s.setInLen n).val = s.val := rfl
@[simp] theorem State.setInLen_flag (s : State) (n : Nat) :
    (s.setInLen n).flag = s.flag := rfl
@[simp] theorem State.setInLen_work (s : State) (n : Nat) :
    (s.setInLen n).work = s.work := rfl
@[simp] theorem State.setInLen_sum (s : State) (n : Nat) :
    (s.setInLen n).sum = s.sum := rfl
@[simp] theorem State.setInLen_pending (s : State) (n : Nat) :
    (s.setInLen n).pending = s.pending := rfl

@[simp] theorem State.setPending_cfg (s : State) (l : List HostAction) :
    (s.setPending l).cfg = s.cfg := rfl
@[simp] theorem State.setPending_params (s : State) (l : List HostAction) :
    (s.setPending l).params = s.params := rfl
@[simp] theorem State.setPending_cmd (s : State) (l : List HostAction) :
    (s.setPending l).cmd = s.cmd := rfl
@[simp] theorem State.setPending_inBuf (s : State) (l : List HostAction) :
    (s.setPending l).inBuf = s.inBuf := rfl
@[simp] theorem State.setPending_inLen (s : State) (l : List HostAction) :
    (s.setPending l).inLen = s.inLen := rfl
@[simp] theorem State.setPending_st (s : State) (l : List HostAction) :
    (s.setPending l).st = s.st := rfl
@[simp] theorem State.setPending_out (s : State) (l : List HostAction) :
    (s.setPending l).out = s.out := rfl
@[simp] theorem State.setPending_outLen (s : State) (l : List HostAction) :
    (s.setPending l).outLen = s.outLen := rfl
@[simp] theorem State.setPending_out2 (s : State) (l : List HostAction) :
    (s.setPending l).out2 = s.out2 := rfl
@[simp] theorem State.setPending_out2Len (s : State) (l : List HostAction) :
    (s.setPending l).out2Len = s.out2Len := rfl
@[simp] theorem State.setPending_val (s : State) (l : List HostAction) :
    (s.setPending l).val = s.val := rfl
@[simp] theorem State.setPending_flag (s : State) (l : List HostAction) :
    (s.setPending l).flag = s.flag := rfl
@[simp] theorem State.setPending_work (s : State) (l : List HostAction) :
    (s.setPending l).work = s.work := rfl
@[simp] theorem State.setPending_sum (s : State) (l : List HostAction) :
    (s.setPending l).sum = s.sum := rfl
@[simp] theorem State.setPending_pending (s : State) (l : List HostAction) :
    (s.setPending l).pending = l := rfl

@[simp] theorem State.fresh_cfg (c : Cfg) (p : Params) (l : List HostAction) :
    (State.fresh c p l).cfg = c := rfl
@[simp] theorem State.fresh_params (c : Cfg) (p : Params) (l : List HostAction) :
    (State.fresh c p l).params = p := rfl
@[simp] theorem State.fresh_cmd (c : Cfg) (p : Params) (l : List HostAction) :
    (State.fresh c p l).cmd = 0#16 := rfl
@[simp] theorem State.fresh_inBuf (c : Cfg) (p : Params) (l : List HostAction) :
    (State.fresh c p l).inBuf = [] := rfl
@[simp] theorem State.fresh_inLen (c : Cfg) (p : Params) (l : List HostAction) :
    (State.fresh c p l).inLen = 0 := rfl
@[simp] theorem State.fresh_st (c : Cfg) (p : Params) (l : List HostAction) :
    (State.fresh c p l).st = 0#2 := rfl
@[simp] theorem State.fresh_out (c : Cfg) (p : Params) (l : List HostAction) :
    (State.fresh c p l).out = some [] := rfl
@[simp] theorem State.fresh_outLen (c : Cfg) (p : Params) (l : List HostAction) :
    (State.fresh c p l).outLen = some 0 := rfl
@[simp] theorem State.fresh_out2 (c : Cfg) (p : Params) (l : List HostAction) :
    (State.fresh c p l).out2 = some [] := rfl
@[simp] theorem State.fresh_out2Len (c : Cfg) (p : Params) (l : List HostAction) :
    (State.fresh c p l).out2Len = some 0 := rfl
@[simp] theorem State.fresh_val (c : Cfg) (p : Params) (l : List HostAction) :
    (State.fresh c p l).val = some 0 := rfl
@[simp] theorem State.fresh_flag (c : Cfg) (p : Params) (l : List HostAction) :
    (State.fresh c p l).flag = some false := rfl
@[simp] theorem State.fresh_work (c : Cfg) (p : Params) (l : List HostAction) :
    (State.fresh c p l).work = [] := rfl
@[simp] theorem State.fresh_sum (c : Cfg) (p : Params) (l : List HostAction) :
    (State.fresh c p l).sum = 0 := rfl
@[simp] theorem State.fresh_pending (c : Cfg) (p : Params) (l : List HostAction) :
    (State.fresh c p l).pending = l := rfl

end Sys2Proof.Machine
end

