-- ==== Sys2Proof/Laws/Ops.lean ====
section
/-! SUPPORT. What each shared operation can do, said once: the sampling of a command, the width test, the division, the
response and the error; and the lengths of what they build. -/

namespace Sys2Proof.Machine

/-! ### Lengths and values -/

@[simp] theorem length_bitsOf (n v : Nat) : (bitsOf n v).length = n := by simp [bitsOf]

@[simp] theorem length_zeros (k : Nat) : (zeros k).length = k := by simp [zeros]

@[simp] theorem length_checksum (s : Bits) (w : Nat) : (checksum s w).length = w := by simp [checksum]

@[simp] theorem length_flipAt (s : Bits) (i : Nat) : (flipAt s i).length = s.length := by simp [flipAt]

theorem length_xorBits (s t : Bits) : (xorBits s t).length = min s.length t.length := by simp [xorBits]

theorem length_memWrite (buf v : Bits) (a : Nat) (h : a + v.length ≤ buf.length) :
    (memWrite buf a v).length = buf.length := by
  simp [memWrite]
  omega

theorem length_xorWindow (poly work : Bits) (i : Nat) (h : i + poly.length ≤ work.length) :
    (xorWindow poly work i).length = work.length := by
  have hx : (xorBits (memRead work i poly.length) poly).length = poly.length := by
    simp [length_xorBits, memRead]
    omega
  exact length_memWrite _ _ _ (by omega)

theorem length_scan (poly : Bits) (k i : Nat) (work : Bits) (h : i + k + poly.length ≤ work.length + 1) :
    (scan poly k i work).length = work.length := by
  induction k generalizing i work with
  | zero => rfl
  | succ k ih =>
    have hw : (if work.getD i false then xorWindow poly work i else work).length = work.length := by
      split
      · exact length_xorWindow poly work i (by omega)
      · rfl
    rw [scan, ih _ _ (by omega), hw]

theorem divide_eq_none {poly buf : Bits} : divide poly buf = none ↔ buf.length < poly.length := by
  simp [divide]

theorem length_divide {poly buf w : Bits} (h : divide poly buf = some w) : w.length = buf.length := by
  simp only [divide] at h
  split at h
  · cases h
  · rw [← Option.some.inj h]
    exact length_scan _ _ _ _ (by omega)

theorem length_remainder {poly buf w : Bits} (h : divide poly buf = some w) :
    (remainder poly w).length = degree poly := by
  have hm := length_divide h
  have hL : ¬ buf.length < poly.length := fun hlt => by simp [divide_eq_none.mpr hlt] at h
  simp [remainder, degree]
  omega

theorem valOf_append (s : Bits) (b : Bit) : valOf (s ++ [b]) = 2 * valOf s + b.toNat := by
  simp [valOf]

theorem valOf_lt (s : Bits) : valOf s < 2 ^ s.length := by
  induction s using List.reverseRecOn with
  | nil => simp [valOf]
  | append_singleton s b ih =>
    have hb : b.toNat ≤ 1 := Bool.toNat_le b
    rw [valOf_append, List.length_append, List.length_singleton, Nat.pow_succ]
    omega

/-! ### Sampling, the width test and the division -/

@[simp] theorem length_inputSeq (s : State) : (inputSeq s).length = s.inLen := by
  simp [inputSeq]
  omega

/-- `IN_LEN` is the length of the input sequence. -/
theorem inLen_of_ready {s : State} {x : Bits} (h : Ready s x) : s.inLen = x.length := by
  rw [← h.1, length_inputSeq]

theorem withInput_of_ready {s : State} {x : Bits} (h : Ready s x) (go : Bits → Result) : withInput s go = go x := by
  rw [withInput, inLen_of_ready h, if_pos h.2, h.1]

/-- The block's own writes do not touch the input sequence (20_memory.md R32). -/
theorem ready_setResponse {s : State} {c : StatusCode} {r : Response} {x : Bits} :
    Ready (s.setResponse c r) x ↔ Ready s x := Iff.rfl

theorem ready_setWork {s : State} {w x : Bits} : Ready (s.setWork w) x ↔ Ready s x := Iff.rfl

theorem ready_setSum {s : State} {n : Nat} {x : Bits} : Ready (s.setSum n) x ↔ Ready s x := Iff.rfl

theorem ready_setPending {s : State} {l : List HostAction} {x : Bits} : Ready (s.setPending l) x ↔ Ready s x := Iff.rfl

/-- The input sequence is one. -/
theorem ready_unique {s : State} {x y : Bits} (hx : Ready s x) (hy : Ready s y) : x = y := hx.1.symm.trans hy.1

/-- A written input sequence is the one sampled, whatever the registers held before (R16). -/
theorem ready_loadInput {s : State} {x : Bits} (h : fits s.params x.length = true) :
    Ready ((s.setInBuf x).setInLen x.length) x :=
  ⟨by simp [inputSeq, memWrite], h⟩

/-- Whatever the outcome, it is that of the continuation on the input sequence, or the command is not admitted. -/
theorem withInput_cases (s : State) (go : Bits → Result) :
    (∃ x, Ready s x ∧ withInput s go = go x) ∨
      (fits s.params s.inLen = false ∧ withInput s go = .refused .notAdmitted) := by
  cases hf : fits s.params s.inLen with
  | true => exact .inl ⟨inputSeq s, ⟨rfl, by simpa using hf⟩, by simp [withInput, hf]⟩
  | false => exact .inr ⟨rfl, by simp [withInput, hf]⟩

theorem withInput_next {s t : State} {go : Bits → Result} (h : withInput s go = .next t) :
    ∃ x, Ready s x ∧ go x = .next t := by
  rcases withInput_cases s go with ⟨x, hx, hg⟩ | ⟨-, hg⟩
  · exact ⟨x, hx, hg ▸ h⟩
  · rw [hg] at h
    cases h

/-- Sampling raises no fault of its own. -/
theorem withInput_fault {s : State} {go : Bits → Result} {f : Fault} (h : withInput s go = .fault f) :
    ∃ x, Ready s x ∧ go x = .fault f := by
  rcases withInput_cases s go with ⟨x, hx, hg⟩ | ⟨-, hg⟩
  · exact ⟨x, hx, hg ▸ h⟩
  · rw [hg] at h
    cases h

theorem acceptWidth_of_accepted {p : WidthPolicy} {n : Nat} (h : Accepted p n) : acceptWidth p n = some n := by
  obtain ⟨hpos, hp⟩ := h
  have h0 : n ≠ 0 := by omega
  cases p with
  | generic => simp [acceptWidth, h0]
  | strict =>
    have h8 : (n : Int) = 8 ∨ (n : Int) = 16 ∨ (n : Int) = 32 := by simpa using hp
    simp [acceptWidth, h0, h8]

theorem acceptWidth_of_not_accepted {p : WidthPolicy} {w : Int} (h : ¬ Accepted p w) : acceptWidth p w = none := by
  by_cases hw : w ≤ 0
  · simp [acceptWidth, hw]
  · cases p with
    | generic => exact absurd ⟨by omega, .inl rfl⟩ h
    | strict =>
      have h8 : ¬ (w = 8 ∨ w = 16 ∨ w = 32) := fun hc => h ⟨by omega, .inr hc⟩
      simp [acceptWidth, hw, h8]

theorem withWidth_of_accepted {s : State} {n : Nat} (h : Accepted s.params.widthPolicy n) (go : Nat → Result) :
    withWidth n s go = go n := by
  simp [withWidth, acceptWidth_of_accepted h]

theorem withWidth_of_not_accepted {s : State} {w : Int} (h : ¬ Accepted s.params.widthPolicy w) (go : Nat → Result) :
    withWidth w s go = raise stInvalidWidth s := by
  simp [withWidth, acceptWidth_of_not_accepted h]

theorem withDivide_short {s : State} {buf : Bits} (h : buf.length < s.cfg.poly.length)
    (go : Bits → State → Result) : withDivide buf s go = raise stInvalidInputLength s := by
  simp [withDivide, divide_eq_none.mpr h]

theorem withDivide_some {s : State} {buf w : Bits} (h : divide s.cfg.poly buf = some w)
    (go : Bits → State → Result) : withDivide buf s go = go (remainder s.cfg.poly w) (s.setWork w) := by
  simp [withDivide, h]

/-! ### The end of an operation -/

theorem respond_next {r : Response} {s t : State} :
    respond r s = .next t ↔ responseFits s.params r = true ∧ t = s.setResponse stOk r := by
  simp only [respond]
  split <;> simp [*, eq_comm]

theorem respond_fault {r : Response} {s : State} {f : Fault} : respond r s ≠ .fault f := by
  simp only [respond]
  split <;> simp

theorem respond_refused {r : Response} {s : State} {q : Refusal} :
    respond r s = .refused q ↔ responseFits s.params r = false ∧ q = .notAdmitted := by
  simp only [respond]
  split <;> simp [*, eq_comm]

theorem raise_fault {c : StatusCode} {s : State} {f : Fault} : raise c s ≠ .fault f := by simp [raise]

theorem raise_next {c : StatusCode} {s t : State} : raise c s = .next t ↔ t = s.setResponse c {} := by
  simp [raise, eq_comm]

/-! ### The host's reads and writes -/

theorem loadInput_next {b : Bits} {s t : State} :
    loadInput b s = .next t ↔ fits s.params b.length = true ∧ t = (s.setInBuf b).setInLen b.length := by
  simp only [loadInput]
  split <;> simp [*, eq_comm]

theorem loadInput_fault {b : Bits} {s : State} {f : Fault} : loadInput b s ≠ .fault f := by
  simp only [loadInput]
  split <;> simp

theorem withOut_next {s t : State} {go : Bits → Result} :
    withOut s go = .next t ↔ ∃ o, s.out = some o ∧ go o = .next t := by
  simp only [withOut]
  split <;> simp [*]

theorem withOut_fault {s : State} {go : Bits → Result} {f : Fault} :
    withOut s go = .fault f ↔
      (s.out = none ∧ f = .invalidated .out) ∨ ∃ o, s.out = some o ∧ go o = .fault f := by
  simp only [withOut]
  split <;> simp [*, eq_comm]

/-! ### The canonical form of the storage -/

theorem wf_setResponse {s : State} {c : StatusCode} {r : Response} (h : Memory.wf s = true)
    (hr : responseFits s.params r = true) : Memory.wf (s.setResponse c r) = true := by
  simp only [Memory.wf, responseFits, Bool.and_eq_true, State.setResponse_params, State.setResponse_cfg,
    State.setResponse_work, State.setResponse_inBuf, State.setResponse_out, State.setResponse_out2,
    State.setResponse_outLen, State.setResponse_out2Len] at h hr ⊢
  simp [h, hr]

theorem wf_setWork {s : State} {w : Bits} (h : Memory.wf s = true)
    (hw : ∀ m, s.params.maxBits = some m → w.length ≤ m + degree s.cfg.poly) : Memory.wf (s.setWork w) = true := by
  simp only [Memory.wf, Bool.and_eq_true, State.setWork_params, State.setWork_cfg,
    State.setWork_work, State.setWork_inBuf, State.setWork_out, State.setWork_out2, State.setWork_outLen,
    State.setWork_out2Len] at h ⊢
  refine ⟨h.1, ?_⟩
  cases hm : s.params.maxBits with
  | none => simp [workFits, hm]
  | some m => simpa [workFits, hm] using hw m hm

theorem fits_max {p : Params} {a b : Nat} (ha : fits p a = true) (hb : fits p b = true) : fits p (max a b) = true := by
  rcases Nat.le_total a b with h | h
  · rwa [Nat.max_eq_right h]
  · rwa [Nat.max_eq_left h]

/-- The host's write of `IN` keeps the longer of what it held and what is written. -/
theorem length_setInBuf (s : State) (b : Bits) : (s.setInBuf b).inBuf.length = max s.inBuf.length b.length := by
  simp [memWrite]
  omega

theorem wf_setInBuf {s : State} {b : Bits} (h : Memory.wf s = true) (hb : fits s.params b.length = true) :
    Memory.wf (s.setInBuf b) = true := by
  have hl := length_setInBuf s b
  simp only [Memory.wf, Bool.and_eq_true, hl, State.setInBuf_params, State.setInBuf_cfg, State.setInBuf_work,
    State.setInBuf_out, State.setInBuf_out2, State.setInBuf_outLen, State.setInBuf_out2Len] at h ⊢
  simp only [h, fits_max h.1.1.1.2 hb, and_self]

/-- An update of a register that is no buffer and no buffer's length keeps the canonical form. -/
theorem wf_of_same_buffers {s t : State} (h : Memory.wf s = true) (hp : t.params = s.params) (hc : t.cfg = s.cfg)
    (hi : t.inBuf = s.inBuf) (ho : t.out = s.out) (hol : t.outLen = s.outLen) (ho2 : t.out2 = s.out2)
    (hol2 : t.out2Len = s.out2Len) (hw : t.work = s.work) : Memory.wf t = true := by
  simpa [Memory.wf, hp, hc, hi, ho, hol, ho2, hol2, hw] using h

theorem wf_fresh (c : Cfg) (p : Params) (l : List HostAction) : Memory.wf (State.fresh c p l) = true := by
  cases hm : p.maxBits <;> simp [Memory.wf, bufFits, fits, workFits, hm]

theorem wf_reset : Memory.wf State.reset = true := wf_fresh _ _ _

end Sys2Proof.Machine
end

