-- ==== Sys2Proof/Laws/Exec.lean ====
section
/-! SUPPORT. Inversion, one lemma per meaning: when an operation answers a next state, what that state is. Each is assembled
from the lemmas about the shared operations; no later proof unfolds a meaning. -/

namespace Sys2Proof.Machine

theorem withDivide_next {s t : State} {buf : Bits} {go : Bits → State → Result}
    (h : withDivide buf s go = .next t) :
    (buf.length < s.cfg.poly.length ∧ t = s.setResponse stInvalidInputLength {}) ∨
      ∃ w, divide s.cfg.poly buf = some w ∧ go (remainder s.cfg.poly w) (s.setWork w) = .next t := by
  cases hd : divide s.cfg.poly buf with
  | none =>
    have hlt := divide_eq_none.mp hd
    rw [withDivide_short hlt, raise_next] at h
    exact .inl ⟨hlt, h⟩
  | some w =>
    rw [withDivide_some hd] at h
    exact .inr ⟨w, rfl, h⟩

theorem withWidth_next {s t : State} {w : Int} {go : Nat → Result} (h : withWidth w s go = .next t) :
    (¬ Accepted s.params.widthPolicy w ∧ t = s.setResponse stInvalidWidth {}) ∨
      ∃ n : Nat, w = n ∧ Accepted s.params.widthPolicy n ∧ go n = .next t := by
  by_cases ha : Accepted s.params.widthPolicy w
  · obtain ⟨n, rfl⟩ : ∃ n : Nat, w = n := ⟨w.toNat, by have := ha.1; omega⟩
    rw [withWidth_of_accepted ha] at h
    exact .inr ⟨n, rfl, ha, h⟩
  · rw [withWidth_of_not_accepted ha, raise_next] at h
    exact .inl ⟨ha, h⟩

theorem execAddpar_next {s t : State} (h : execAddpar s = .next t) :
    ∃ x, Ready s x ∧ responseFits s.params { out := some (x ++ [parityBit x]) } = true ∧
      t = s.setResponse stOk { out := some (x ++ [parityBit x]) } := by
  obtain ⟨x, hx, h⟩ := withInput_next h
  exact ⟨x, hx, respond_next.mp h⟩

theorem execChkpar_next {s t : State} (h : execChkpar s = .next t) :
    ∃ x, Ready s x ∧ t = s.setResponse stOk { flag := some (evenFlag x) } := by
  obtain ⟨x, hx, h⟩ := withInput_next h
  exact ⟨x, hx, (respond_next.mp h).2⟩

theorem execDivrem_next {s t : State} (h : execDivrem s = .next t) :
    ∃ x, Ready s x ∧
      ((x.length < s.cfg.poly.length ∧ t = s.setResponse stInvalidInputLength {}) ∨
        ∃ w, divide s.cfg.poly x = some w ∧ responseFits s.params { out := some (remainder s.cfg.poly w) } = true ∧
          t = (s.setWork w).setResponse stOk { out := some (remainder s.cfg.poly w) }) := by
  obtain ⟨x, hx, h⟩ := withInput_next h
  rcases withDivide_next h with h | ⟨w, hw, h⟩
  · exact ⟨x, hx, .inl h⟩
  · exact ⟨x, hx, .inr ⟨w, hw, respond_next.mp h⟩⟩

theorem execGencrc_next {s t : State} (h : execGencrc s = .next t) :
    ∃ x, Ready s x ∧
      ((x.length + degree s.cfg.poly < s.cfg.poly.length ∧ t = s.setResponse stInvalidInputLength {}) ∨
        ∃ w, divide s.cfg.poly (x ++ zeros (degree s.cfg.poly)) = some w ∧
          responseFits s.params { out := some (remainder s.cfg.poly w) } = true ∧
          t = (s.setWork w).setResponse stOk { out := some (remainder s.cfg.poly w) }) := by
  obtain ⟨x, hx, h⟩ := withInput_next h
  rcases withDivide_next h with ⟨hl, h⟩ | ⟨w, hw, h⟩
  · exact ⟨x, hx, .inl ⟨by simpa using hl, h⟩⟩
  · exact ⟨x, hx, .inr ⟨w, hw, respond_next.mp h⟩⟩

theorem execChkcrc_next {s t : State} (h : execChkcrc s = .next t) :
    ∃ x, Ready s x ∧
      ((x.length < s.cfg.poly.length ∧ t = s.setResponse stInvalidInputLength {}) ∨
        ∃ w, divide s.cfg.poly x = some w ∧
          t = (s.setWork w).setResponse stOk { val := some (valOf (remainder s.cfg.poly w)) }) := by
  obtain ⟨x, hx, h⟩ := withInput_next h
  rcases withDivide_next h with h | ⟨w, hw, h⟩
  · exact ⟨x, hx, .inl h⟩
  · exact ⟨x, hx, .inr ⟨w, hw, (respond_next.mp h).2⟩⟩

theorem calcsum_next {s t : State} {w : Int} (h : calcsum w s = .next t) :
    ∃ x, Ready s x ∧
      ((¬ Accepted s.params.widthPolicy w ∧ t = s.setResponse stInvalidWidth {}) ∨
        ∃ n : Nat, w = n ∧ Accepted s.params.widthPolicy n ∧
          responseFits s.params { out := some (checksum x n) } = true ∧
          t = (s.setSum (sumw (pad x n) n)).setResponse stOk { out := some (checksum x n) }) := by
  obtain ⟨x, hx, h⟩ := withInput_next h
  rcases withWidth_next h with h | ⟨n, hn, ha, h⟩
  · exact ⟨x, hx, .inl h⟩
  · exact ⟨x, hx, .inr ⟨n, hn, ha, respond_next.mp h⟩⟩

theorem addsum_next {s t : State} {w : Int} (h : addsum w s = .next t) :
    ∃ x, Ready s x ∧
      ((¬ Accepted s.params.widthPolicy w ∧ t = s.setResponse stInvalidWidth {}) ∨
        ∃ n : Nat, w = n ∧ Accepted s.params.widthPolicy n ∧
          responseFits s.params { out := some (x ++ checksum x n) } = true ∧
          t = (s.setSum (sumw (pad x n) n)).setResponse stOk { out := some (x ++ checksum x n) }) := by
  obtain ⟨x, hx, h⟩ := withInput_next h
  rcases withWidth_next h with h | ⟨n, hn, ha, h⟩
  · exact ⟨x, hx, .inl h⟩
  · exact ⟨x, hx, .inr ⟨n, hn, ha, respond_next.mp h⟩⟩

theorem versum_next {s t : State} {w : Int} (h : versum w s = .next t) :
    ∃ x, Ready s x ∧
      ((¬ Accepted s.params.widthPolicy w ∧ t = s.setResponse stInvalidWidth {}) ∨
        ∃ n : Nat, w = n ∧ Accepted s.params.widthPolicy n ∧
          t = (s.setSum (total x n)).setResponse stOk { flag := some (allOnesFlag (fold (total x n) n) n) }) := by
  obtain ⟨x, hx, h⟩ := withInput_next h
  rcases withWidth_next h with h | ⟨n, hn, ha, h⟩
  · exact ⟨x, hx, .inl h⟩
  · exact ⟨x, hx, .inr ⟨n, hn, ha, (respond_next.mp h).2⟩⟩

/-- What `VERSUMS` answers to a frame (R116). -/
def versumsResponse (x : Bits) (n : Nat) : Response :=
  { flag := some (sameBitsFlag (recvPart x n) (checksum (dataPart x n) n))
    out := some (checksum (dataPart x n) n)
    out2 := some (recvPart x n) }

theorem versums_next {s t : State} {w : Int} (h : versums w s = .next t) :
    ∃ x, Ready s x ∧
      ((¬ Accepted s.params.widthPolicy w ∧ t = s.setResponse stInvalidWidth {}) ∨
        ∃ n : Nat, w = n ∧ Accepted s.params.widthPolicy n ∧ responseFits s.params (versumsResponse x n) = true ∧
          t = (s.setSum (sumw (pad (dataPart x n) n) n)).setResponse stOk (versumsResponse x n)) := by
  obtain ⟨x, hx, h⟩ := withInput_next h
  rcases withWidth_next h with h | ⟨n, hn, ha, h⟩
  · exact ⟨x, hx, .inl h⟩
  · exact ⟨x, hx, .inr ⟨n, hn, ha, respond_next.mp h⟩⟩

end Sys2Proof.Machine
end

