-- ==== Sys2Proof/Laws/PerInstr.lean ====
section
/-! SUPPORT. Facts about every instruction as syntax, one lemma per constructor: the fields of its command word are the
ones of the operation map (30_encoding.md R53, R56). -/

namespace Sys2Proof.Laws

/-- `OP` of an instruction (R56). -/
def opCode : Instr → Nat
  | .addpar => 0
  | .chkpar => 1
  | .divrem => 2
  | .gencrc => 3
  | .chkcrc => 4
  | .calcsum _ | .calcsumD => 5
  | .addsum _ | .addsumD => 6
  | .versum _ | .versumD => 7
  | .versums _ | .versumsD => 8

/-- `DW` of an instruction: the default-width forms (R55). -/
def isDefaultForm : Instr → Bool
  | .calcsumD | .addsumD | .versumD | .versumsD => true
  | .addpar | .chkpar | .divrem | .gencrc | .chkcrc => false
  | .calcsum _ | .addsum _ | .versum _ | .versums _ => false

/-- `WF` of an instruction (R54). -/
def widthField : Instr → Nat
  | .calcsum wf | .addsum wf | .versum wf | .versums wf => wf
  | .addpar | .chkpar | .divrem | .gencrc | .chkcrc => 0
  | .calcsumD | .addsumD | .versumD | .versumsD => 0

/-- The four fields of the word of a well-formed instruction. -/
def EncodeFields.Statement (i : Instr) : Prop :=
  WellFormed i = true →
    opField (encode i) = opCode i ∧ dwField (encode i) = isDefaultForm i ∧ zField (encode i) = 0 ∧
      wfField (encode i) = widthField i

theorem withWidthBits_fields {p : CommandWord} {wf : Nat} (h : wf < 256)
    (hp : p = 0x5000#16 ∨ p = 0x6000#16 ∨ p = 0x7000#16 ∨ p = 0x8000#16) :
    opField (withWidthBits p wf) = opField p ∧ dwField (withWidthBits p wf) = false ∧
      zField (withWidthBits p wf) = 0 ∧ wfField (withWidthBits p wf) = wf := by
  have key : ∀ n : Fin 256, opField (withWidthBits p n) = opField p ∧ dwField (withWidthBits p n) = false ∧
      zField (withWidthBits p n) = 0 ∧ wfField (withWidthBits p n) = n := by
    rcases hp with rfl | rfl | rfl | rfl <;> decide +kernel
  exact key ⟨wf, h⟩

theorem EncodeFields.addpar : Statement .addpar := fun _ => by decide
theorem EncodeFields.chkpar : Statement .chkpar := fun _ => by decide
theorem EncodeFields.divrem : Statement .divrem := fun _ => by decide
theorem EncodeFields.gencrc : Statement .gencrc := fun _ => by decide
theorem EncodeFields.chkcrc : Statement .chkcrc := fun _ => by decide
theorem EncodeFields.calcsum (wf : Nat) : Statement (.calcsum wf) := fun h =>
  withWidthBits_fields (by simpa [WellFormed] using h) (.inl rfl)
theorem EncodeFields.calcsumD : Statement .calcsumD := fun _ => by decide
theorem EncodeFields.addsum (wf : Nat) : Statement (.addsum wf) := fun h =>
  withWidthBits_fields (by simpa [WellFormed] using h) (.inr (.inl rfl))
theorem EncodeFields.addsumD : Statement .addsumD := fun _ => by decide
theorem EncodeFields.versum (wf : Nat) : Statement (.versum wf) := fun h =>
  withWidthBits_fields (by simpa [WellFormed] using h) (.inr (.inr (.inl rfl)))
theorem EncodeFields.versumD : Statement .versumD := fun _ => by decide
theorem EncodeFields.versums (wf : Nat) : Statement (.versums wf) := fun h =>
  withWidthBits_fields (by simpa [WellFormed] using h) (.inr (.inr (.inr rfl)))
theorem EncodeFields.versumsD : Statement .versumsD := fun _ => by decide

end Sys2Proof.Laws
end

