-- ==== Sys2Proof/Tests/Slice0.lean ====
section
/-! SUPPORT. The model's own tests: expected results are the spec's vectors (95_test_vectors.md, named in each comment), and
for each statement with hypotheses a state and operands that meet all of them. -/

namespace Sys2Proof.Tests

open Sys2Proof.Machine

/-- An instance with a legal configuration whose host has written the input `x`. -/
def start (poly : Bits) (defw : Int) (p : Params) (x : Bits) : State :=
  ((State.fresh ⟨poly, defw⟩ p []).setInBuf x).setInLen x.length

/-- `POLY = 1011`, the configuration of most vectors. -/
def poly4 : Bits := bitsOf 4 0b1011

def free : Params := ⟨none, .generic⟩

/-- `POLY = 1011`, `DEFW = 16`, generic, unbounded. -/
def on (x : Bits) : State := start poly4 16 free x

/-- "ABC" (S7). -/
def abc : Bits := bitsOf 24 0x414243

/-- The frame of V-SUM-11. -/
def frame16 : Bits := bitsOf 40 0x4142437BBD

def outOf : Result → Option Bits
  | .next t => t.out
  | .fault _ | .refused _ => none

def out2Of : Result → Option Bits
  | .next t => t.out2
  | .fault _ | .refused _ => none

def valueOf : Result → Option Nat
  | .next t => t.val
  | .fault _ | .refused _ => none

def flagOf : Result → Option Bit
  | .next t => t.flag
  | .fault _ | .refused _ => none

def codeOf : Result → Option StatusCode
  | .next t => some t.st
  | .fault _ | .refused _ => none

def refusedBy : Result → Option Refusal
  | .refused q => some q
  | .next _ | .fault _ => none

def faultOf : Result → Option Fault
  | .fault f => some f
  | .next _ | .refused _ => none

def decodesTo (w : CommandWord) (i : Instr) : Bool :=
  match decode w with
  | .ok j => i == j
  | .error _ => false

def reservedAs (w : CommandWord) (why : Reserved) : Bool :=
  match decode w with
  | .ok _ => false
  | .error e => e == why

/-! ### WellFormed: an ill-formed term for its one check -/

theorem test_wellFormed_calcsum : WellFormed (.calcsum 256) = false ∧ WellFormed (.calcsum 255) = true := by decide
theorem test_wellFormed_addsum : WellFormed (.addsum 256) = false := by decide
theorem test_wellFormed_versum : WellFormed (.versum 300) = false := by decide
theorem test_wellFormed_versums : WellFormed (.versums 256) = false := by decide

/-! ### Decoding: the patterns of R57 written out (OP, DW, Z, WF) -/

theorem test_decode_parity : decodesTo 0b0000_0_000_00000000#16 .addpar ∧ decodesTo 0b0001_0_000_00000000#16 .chkpar := by
  decide
theorem test_decode_divider : decodesTo 0b0010_0_000_00000000#16 .divrem ∧ decodesTo 0b0011_0_000_00000000#16 .gencrc ∧
    decodesTo 0b0100_0_000_00000000#16 .chkcrc := by decide
theorem test_decode_calcsum : decodesTo 0b0101_0_000_00001000#16 (.calcsum 8) ∧
    decodesTo 0b0101_0_000_00000000#16 (.calcsum 0) ∧ decodesTo 0b0101_1_000_00000000#16 .calcsumD := by decide
theorem test_decode_addsum : decodesTo 0b0110_0_000_00010000#16 (.addsum 16) ∧
    decodesTo 0b0110_1_000_00000000#16 .addsumD := by decide
theorem test_decode_versum : decodesTo 0b0111_0_000_00100000#16 (.versum 32) ∧
    decodesTo 0b0111_1_000_00000000#16 .versumD := by decide
theorem test_decode_versums : decodesTo 0b1000_0_000_11111111#16 (.versums 255) ∧
    decodesTo 0b1000_1_000_00000000#16 .versumsD := by decide
/-- V-DEC-09 to V-DEC-12. -/
theorem test_decode_reserved : reservedAs 0x5801#16 .strayWidth ∧ reservedAs 0x3800#16 .strayOperand ∧
    reservedAs 0x5100#16 .zeroBits ∧ reservedAs 0xF000#16 .operationCode := by decide
theorem test_rows_disjoint : rows.Pairwise fun r q => r.mask &&& q.mask &&& (r.pattern ^^^ q.pattern) ≠ 0#16 := by
  decide
theorem test_table_word : decodeTableWord 16 0x6010 = some (.addsum 16) ∧ decodeTableWord 16 0x9000 = none := by decide
/-- R62. -/
theorem test_omitted_width : assemble (.calcsum none) = .calcsumD ∧ assemble (.calcsum (some 8)) = .calcsum 8 := by
  decide

/-- R61's examples of the written form. -/
theorem test_command_text : commandText .addpar (bitsOf 4 0b1011) = "ADDPAR 1011" ∧
    commandText (.calcsum (some 16)) (bitsOf 3 0b010) = "CALCSUM 16, 010" ∧
    commandText (.calcsum none) (bitsOf 3 0b010) = "CALCSUM.D 010" := by decide +kernel

/-! ### One step each -/

/-- V-PAR-01. -/
theorem test_addpar : outOf (exec .addpar (on (bitsOf 4 0b1011))) = some (bitsOf 5 0b10111) := by decide
/-- V-PAR-03. -/
theorem test_addpar_empty : outOf (exec .addpar (on [])) = some [false] := by decide
/-- V-PAR-08, V-PAR-09. -/
theorem test_chkpar : flagOf (exec .chkpar (on (bitsOf 5 0b10111))) = some true ∧
    flagOf (exec .chkpar (on (bitsOf 5 0b10101))) = some false := by decide
/-- V-CRC-07. -/
theorem test_divrem : outOf (exec .divrem (on (bitsOf 4 0b0111))) = some (bitsOf 3 0b111) ∧
    outOf (exec .divrem (on (bitsOf 4 0b1010))) = some (bitsOf 3 0b001) := by decide
/-- V-CRC-10. -/
theorem test_divrem_short : codeOf (exec .divrem (on (bitsOf 3 0b101))) = some stInvalidInputLength ∧
    outOf (exec .divrem (on (bitsOf 3 0b101))) = none := by decide
/-- V-CRC-01. -/
theorem test_gencrc : outOf (exec .gencrc (on (bitsOf 14 0b11010011101100))) = some (bitsOf 3 0b100) := by
  decide +kernel
/-- V-CRC-04 and V-ERR-02. -/
theorem test_gencrc_shortest : outOf (exec .gencrc (on [true])) = some (bitsOf 3 0b011) ∧
    codeOf (exec .gencrc (on [])) = some stInvalidInputLength := by decide
/-- V-CRC-09. -/
theorem test_chkcrc : valueOf (exec .chkcrc (on (bitsOf 17 0b11000011101100100))) = some 5 := by decide +kernel
/-- V-CRC-14: the burst property needs the constant term. -/
theorem test_chkcrc_no_constant_term :
    valueOf (exec .chkcrc (start (bitsOf 3 0b110) 16 free (bitsOf 3 0b000))) = some 0 := by decide
/-- S7, V-SUM-01. -/
theorem test_calcsum_8 : outOf (exec (.calcsum 8) (on abc)) = some (bitsOf 8 0x39) := by decide +kernel
/-- V-SUM-07: two passes of the fold. -/
theorem test_calcsum_fold_twice : outOf (exec (.calcsum 8) (on (bitsOf 24 0xFFFF01))) = some (bitsOf 8 0xFE) := by
  decide +kernel
/-- V-SUM-10b. -/
theorem test_calcsumD : outOf (exec .calcsumD (on abc)) = some (bitsOf 16 0x7BBD) := by decide +kernel
theorem test_calcsumD_negative : codeOf (exec .calcsumD (start poly4 (-3) free abc)) = some stInvalidWidth := by decide
/-- V-SUM-11. -/
theorem test_addsum : outOf (exec (.addsum 16) (on abc)) = some frame16 := by decide +kernel
/-- V-ERR-04. -/
theorem test_addsum_strict : codeOf (exec (.addsum 12) (start poly4 16 ⟨none, .strict⟩ (bitsOf 4 0b1010)))
    = some stInvalidWidth := by decide
theorem test_addsumD : outOf (exec .addsumD (start poly4 8 free (bitsOf 3 0b101))) = some (bitsOf 11 0b10101011111) := by
  decide +kernel
/-- V-SUM-13. -/
theorem test_versum : flagOf (exec (.versum 16) (on frame16)) = some true := by decide +kernel
/-- V-SUM-18: the positive zero does not pass. -/
theorem test_versum_zero_frame : flagOf (exec (.versum 8) (on (bitsOf 16 0))) = some false := by decide +kernel
/-- P2, step 6. -/
theorem test_versumD : flagOf (exec .versumD (on (flipAt frame16 5))) = some false := by decide +kernel
/-- V-SUM-14. -/
theorem test_versums : outOf (exec (.versums 16) (on (flipAt frame16 5))) = some (bitsOf 16 0x77BD) ∧
    out2Of (exec (.versums 16) (on (flipAt frame16 5))) = some (bitsOf 16 0x7BBD) := by decide +kernel
/-- V-SUM-19. -/
theorem test_versums_all_ones : flagOf (exec (.versums 8) (on (bitsOf 16 0xFFFF))) = some false ∧
    flagOf (exec (.versum 8) (on (bitsOf 16 0xFFFF))) = some true := by decide +kernel
/-- V-SUM-20: a frame shorter than the width. -/
theorem test_versumsD_short : out2Of (exec .versumsD (start poly4 8 free (bitsOf 3 0b101))) = some (bitsOf 3 0b101) ∧
    flagOf (exec .versumsD (start poly4 8 free (bitsOf 3 0b101))) = some false := by decide +kernel

/-! ### The machine and its host -/

theorem test_reset_legal : Legal State.reset := by decide
/-- R161: after reset the block is idle. -/
theorem test_reset_idle : step State.reset = .next State.reset := rfl
theorem test_reset_runs_placed_command :
    outOf (step (State.reset.withFetchWord 16 0x0000)) = some [false] := by decide
/-- P3, step 4. -/
theorem test_reserved_refused :
    refusedBy (step ((on []).withFetchWord 16 0x9000)) = some (.reservedWord .operationCode) := by decide
/-- The reset values (log 1): the first command of a run may be the one `CMD` holds at reset, `ADDPAR` of the empty input. -/
theorem test_issue_at_reset : outOf (step (State.reset.setPending [.issue])) = some [false] := by decide
theorem test_read_at_reset : faultOf (step (State.reset.setPending [.read .out])) = none := by decide
/-- R18, R25: `CHKPAR` leaves `OUT` without a value. -/
theorem test_read_invalidated :
    faultOf (Host.Core.run Sys2Proof.core 2 ((on []).setPending [.issue, .read .out])) = none ∧
      faultOf (Host.Core.run Sys2Proof.core 2 (((on []).setCmd 0x1000#16).setPending [.issue, .read .out]))
        = some (.invalidated .out) := by decide
/-- R32: a write of `IN` changes no bit beyond it; a bit never written reads as the model's reset value (log 20). -/
theorem test_write_input_window : inputSeq (((on (bitsOf 4 0b1011)).setInBuf [false, true]).setInLen 5)
    = bitsOf 4 0b0111 ++ [unwrittenBit] := by decide
/-- R63: the host's five actions form the frame of V-CRC-02. -/
theorem test_form_frame : (match formFrameFrom ((on (bitsOf 14 0b11010011101100)).setResponse 0#2
    { out := some (bitsOf 3 0b100) }) with
    | .next t => some (inputSeq t)
    | .fault _ | .refused _ => none) = some (bitsOf 17 0b11010011101100100) := by decide +kernel
/-- R149's example: the zero byte is skipped and the last single bit dropped. -/
theorem test_decode_text : decodeText (bitsOf 25 0b0100000100000000010000101) = [0x41#8, 0x42#8] := by decide +kernel
theorem test_admission : refusedBy (exec .addpar (start poly4 16 ⟨some 4, .generic⟩ (bitsOf 4 0b1011)))
    = some .notAdmitted := by decide

/-! ### Witnesses: the hypotheses of each statement can be met together -/

/-- `on x` with a command written and issued. -/
def issued (w : CommandWord) (x : Bits) : State := ((on x).setCmd w).setPending [.issue]

/-- Generous but finite buffers, strict widths. -/
def boundedStrict (n : Nat) : Params := ⟨some n, .strict⟩

theorem witness_DecodeAfterEncode : WellFormed (.versums 255) = true := by decide
theorem witness_EncodeAfterDecode : decode 0x50FF#16 = .ok (.calcsum 255) := rfl
theorem witness_ReservedWordsAreRefused : (issued 0x5801#16 []).cmd = 0x5801#16 ∧
    decode 0x5801#16 = .error .strayWidth := ⟨rfl, rfl⟩
theorem witness_StepRunsIssuedCommand : (issued 0x4000#16 poly4).cmd = 0x4000#16 ∧
    decode 0x4000#16 = .ok .chkcrc ∧ (issued 0x4000#16 poly4).pending = .issue :: [] := ⟨rfl, rfl, rfl⟩
theorem witness_CommandSequenceIssuesCommand :
    (State.reset.setPending (commandActions (.calcsum (some 255)) abc)).pending
        = commandActions (.calcsum (some 255)) abc ++ [] ∧
      fits State.reset.params abc.length = true ∧ WellFormed (assemble (.calcsum (some 255))) = true := by decide
theorem witness_DefaultWidthFormUsesDefw : (on abc).cfg.defw = (16 : Nat) ∧
    (start poly4 (-1) free abc).cfg.defw < 0 ∧ (1 ≤ 255 ∧ 255 < 256) := by decide
theorem witness_AddparAppendsParityBit : Ready (start poly4 16 (boundedStrict 5) poly4) poly4 ∧
    fits (boundedStrict 5) (poly4.length + 1) = true := by decide
theorem witness_AddparResultHasEvenOnes : Ready (on []) [] ∧ fits (on []).params 1 = true := by decide
theorem witness_ChkparTestsEvenness : Ready (start poly4 16 (boundedStrict 4) poly4) poly4 := by decide
theorem witness_ParityReadsNoConfiguration : ∃ t, exec .addpar (on poly4) = .next t := ⟨_, rfl⟩
theorem witness_ParityRoundTrip : Ready (on poly4) poly4 ∧ fits (on poly4).params (poly4.length + 1) = true := by
  decide
theorem witness_ChkparDetectsOddFlips : (bitsOf 5 0b10111).count true % 2 = 0 ∧
    (bitsOf 5 0b10101).length = (bitsOf 5 0b10111).length ∧
    Ready (on (bitsOf 5 0b10101)) (bitsOf 5 0b10101) := by decide
theorem witness_DivremReturnsRemainder : Ready (on poly4) poly4 ∧ (on poly4).cfg.poly.length ≤ poly4.length := by decide
theorem witness_DivremReturnsRemainder_short : Ready (on (bitsOf 3 5)) (bitsOf 3 5) ∧
    (bitsOf 3 5).length < (on (bitsOf 3 5)).cfg.poly.length := by decide
theorem witness_GencrcReturnsCrc : legalPoly poly4 = true ∧
    Ready (start poly4 16 (boundedStrict 3) [true]) [true] ∧ [true] ≠ ([] : Bits) ∧
    fits (boundedStrict 3) (poly4.length - 1) = true := by decide
theorem witness_GencrcReturnsCrc_empty : legalPoly (on []).cfg.poly = true ∧ Ready (on []) [] := by decide
theorem witness_ChkcrcReturnsRemainderValue : Ready (on poly4) poly4 ∧
    (on poly4).cfg.poly.length ≤ poly4.length := by decide
theorem witness_ChkcrcReturnsRemainderValue_short : Ready (on []) [] ∧
    ([] : Bits).length < (on []).cfg.poly.length := by decide
theorem witness_DivideComputesRemainder : legalPoly poly4 = true ∧
    divide poly4 (bitsOf 5 0b11000) = some (bitsOf 5 0b00101) := by decide
theorem witness_ScanClearsPrefix : legalPoly poly4 = true ∧ 2 + poly4.length ≤ (bitsOf 5 0b11000).length + 1 := by decide
/-- V-CRC-17. -/
theorem witness_DivideIsLinear : legalPoly poly4 = true ∧
    (bitsOf 7 0b1101001).length = (bitsOf 7 0b0110100).length ∧
    divRem poly4 (bitsOf 7 0b1101001) = some (bitsOf 3 0b000) ∧
    divRem poly4 (bitsOf 7 0b0110100) = some (bitsOf 3 0b101) := by decide
theorem witness_LeadingZerosKeepRemainder : legalPoly poly4 = true ∧ poly4.length ≤ (bitsOf 4 0b1111).length := by decide
theorem witness_CrcRoundTrip : legalPoly poly4 = true ∧ Ready (start poly4 16 (boundedStrict 4) [true]) [true] ∧
    [true] ≠ ([] : Bits) ∧ fits (boundedStrict 4) ([true].length + (poly4.length - 1)) = true := by decide
/-- The valid frame `1001110` (payload `1001`). -/
def frame7 : Bits := bitsOf 7 0b1001110

theorem witness_ChkcrcSeesOnlyErrorPattern : legalPoly poly4 = true ∧ frame7.length = (bitsOf 7 0b0000111).length ∧
    divRem poly4 frame7 = some (List.replicate (poly4.length - 1) false) ∧
    Ready (on (xorBits frame7 (bitsOf 7 7))) (xorBits frame7 (bitsOf 7 7)) := by decide
theorem witness_BurstsAreDetected : legalPoly poly4 = true ∧ poly4.getLast? = some true ∧
    divRem poly4 frame7 = some (List.replicate (poly4.length - 1) false) ∧
    [true, false, true].length ≤ poly4.length - 1 ∧ true ∈ [true, false, true] ∧
    4 + [true, false, true].length + 0 = frame7.length ∧
    Ready (on (xorBits frame7 (List.replicate 4 false ++ [true, false, true] ++ List.replicate 0 false)))
      (xorBits frame7 (List.replicate 4 false ++ [true, false, true] ++ List.replicate 0 false)) := by decide

/-- A state for the checksum statements: `DEFW = 8`, strict, room for exactly one result of 11 bits. -/
def sumState : State := start poly4 8 (boundedStrict 11) (bitsOf 3 0b101)

theorem witness_CalcsumReturnsChecksum : Ready sumState (bitsOf 3 0b101) ∧
    Accepted sumState.params.widthPolicy (8 : Nat) ∧ fits sumState.params 8 = true ∧ sumState.cfg.defw = (8 : Nat) := by
  decide
theorem witness_CalcsumReturnsChecksum_width : Ready sumState (bitsOf 3 0b101) ∧
    ¬ Accepted sumState.params.widthPolicy 0 ∧ ¬ Accepted sumState.params.widthPolicy 7 ∧ (7 : Int) = (7 : Nat) := by decide
theorem witness_AddsumAppendsChecksum : Ready sumState (bitsOf 3 0b101) ∧
    Accepted sumState.params.widthPolicy (8 : Nat) ∧ fits sumState.params ((bitsOf 3 0b101).length + 8) = true ∧
    sumState.cfg.defw = (8 : Nat) := by decide
theorem witness_AddsumAppendsChecksum_width : Ready sumState (bitsOf 3 0b101) ∧
    ¬ Accepted sumState.params.widthPolicy 255 ∧ (255 : Int) = (255 : Nat) := by decide
theorem witness_VersumTestsAllOnes : Ready sumState (bitsOf 3 0b101) ∧ Accepted sumState.params.widthPolicy (32 : Nat) ∧
    Accepted sumState.params.widthPolicy (8 : Nat) ∧ sumState.cfg.defw = (8 : Nat) := by decide
theorem witness_VersumTestsAllOnes_width : Ready (start poly4 (-3) free abc) abc ∧
    ¬ Accepted free.widthPolicy (-3) ∧ (start poly4 (-3) free abc).cfg.defw = -3 := by decide
theorem witness_VersumsComparesChecksums : Ready sumState (bitsOf 3 0b101) ∧
    Accepted sumState.params.widthPolicy (8 : Nat) ∧ fits sumState.params 8 = true ∧ sumState.cfg.defw = (8 : Nat) := by
  decide
theorem witness_VersumsComparesChecksums_width : Ready sumState (bitsOf 3 0b101) ∧
    ¬ Accepted sumState.params.widthPolicy 12 ∧ (12 : Int) = (12 : Nat) := by decide
theorem witness_NonPositiveWidthRaisesInvalidWidth : Ready (start poly4 0 free []) [] ∧
    (start poly4 0 free []).cfg.defw ≤ 0 := by decide
theorem witness_WidthPolicyDecidesOtherWidths_strict : Ready (start poly4 1 (boundedStrict 0) []) [] ∧
    (boundedStrict 0).widthPolicy = .strict ∧ 0 < 1 ∧ 1 ≠ 8 ∧ 1 ≠ 16 ∧ 1 ≠ 32 ∧
    (start poly4 1 (boundedStrict 0) []).cfg.defw = (1 : Nat) := by decide
theorem witness_WidthPolicyDecidesOtherWidths_generic : Ready (start poly4 1 free [true]) [true] ∧
    free.widthPolicy = .generic ∧ 0 < 1 ∧ free.maxBits = none ∧
    (start poly4 1 free [true]).cfg.defw = (1 : Nat) := by decide
theorem witness_PadFillsLastWord : 1 ≤ 8 ∧ 8 ∣ (bitsOf 8 0xFF).length := by decide
theorem witness_FoldRepeatsUntilFits : 1 ≤ 8 ∧ fold 0x1FF 8 = 1 := by decide
theorem witness_FoldIsReductionModuloM : 1 ≤ 1 ∧ 2 ^ 1 ≤ 2 ∧ (1 : Nat) ≤ 2 ^ 1 - 1 := by decide
theorem witness_FoldAtEveryAddition : 1 ≤ 8 ∧ 8 ∣ (bitsOf 24 0xFFFF01).length := by decide
theorem witness_SumwAddsEachWordOnce : 1 ≤ 8 ∧ 8 ∣ (bitsOf 16 0x4142).length ∧ (bitsOf 8 0x43).length = 8 := by decide
/-- S7, worked out: the three words of "ABC" add up to 0xC6. -/
theorem test_sumw_abc : sumw abc 8 = 0xC6 ∧ sumw [] 8 = 0 := by decide +kernel
theorem witness_SumAndChecksumAreComplements : 1 ≤ 1 := by decide
theorem witness_ShortFramesAreInvalid : Ready sumState (bitsOf 3 0b101) ∧
    Accepted sumState.params.widthPolicy (8 : Nat) ∧ (bitsOf 3 0b101).length < 8 ∧ fits sumState.params 8 = true := by
  decide
/-- V-SUM-19: a frame on which the verifiers disagree. -/
theorem witness_VerifiersDisagreeOnlyOnAllOnes : Ready (on (bitsOf 16 0xFFFF)) (bitsOf 16 0xFFFF) ∧
    Accepted (on []).params.widthPolicy (8 : Nat) ∧ 8 ≤ (bitsOf 16 0xFFFF).length ∧
    foldedSum ((bitsOf 16 0xFFFF).take 8) 8 = 2 ^ 8 - 1 ∧
    (bitsOf 16 0xFFFF).drop 8 = List.replicate 8 true := by decide +kernel
theorem witness_ChecksumRoundTrip : Ready sumState (bitsOf 3 0b101) ∧ Accepted sumState.params.widthPolicy (8 : Nat) ∧
    fits sumState.params ((bitsOf 3 0b101).length + 8) = true := by decide
theorem witness_SingleFlipsAreDetected : Ready (on [true]) [true] ∧ 2 ≤ 2 ∧
    Accepted (on [true]).params.widthPolicy (2 : Nat) ∧ fits (on [true]).params ([true].length + 2) = true ∧
    2 < [true].length + 2 := by decide
theorem witness_IntegerReadingOfBits : 255 < 2 ^ 8 := by decide
theorem witness_WideWordIsTwoNarrowWords : (0 + 1) * (2 * 8) ≤ (bitsOf 16 0x4142).length := by decide
theorem witness_WriteChangesOnlyItsWindow : 1 + [true, true].length ≤ (bitsOf 4 0).length ∧
    (0 < 1 ∨ 1 + [true, true].length ≤ 0) ∧ (3 < 1 ∨ 1 + [true, true].length ≤ 3) := by decide
theorem witness_ErrorCauses : legalPoly (on (bitsOf 3 5)).cfg.poly = true ∧ Ready (on (bitsOf 3 5)) (bitsOf 3 5) ∧
    exec .divrem (on (bitsOf 3 5)) = .next ((on (bitsOf 3 5)).setResponse 1#2 {}) :=
  ⟨by decide, by decide, rfl⟩
theorem witness_DetectedErrorsAreResults : flagOf (exec .chkpar (on [true])) = some false ∧
    valueOf (exec .chkcrc (on (bitsOf 4 0b0111))) = some 7 := by decide
theorem witness_ResultRegistersOfEachOperation : codeOf (exec (.versums 8) (on [])) = some 0#2 ∧
    codeOf (exec (.versums 0) (on [])) = some 2#2 := by decide
theorem witness_ErrorEntryLeavesNoResult : exec (.addsum 0) (on []) = .next ((on []).setResponse 2#2 {}) ∧
    ((on []).setResponse 2#2 {}).st ≠ 0#2 := ⟨rfl, by decide⟩
theorem witness_ResponseIgnoresHistory : ((on abc).setWork abc).cfg = (on abc).cfg ∧
    ((on abc).setWork abc).params = (on abc).params ∧ ((on abc).setWork abc).inBuf = (on abc).inBuf ∧
    ((on abc).setWork abc).inLen = (on abc).inLen := by decide
theorem witness_CommandsAreIdempotent : codeOf (exec .chkpar (on abc)) = some 0#2 ∧
    codeOf (exec .chkcrc (on [])) = some 1#2 ∧
    readRegister .inLen (on abc) = .next (on abc) := ⟨by decide, by decide, rfl⟩
theorem witness_OperationsKeepTheRest : codeOf (exec .addpar (on abc)) = some 0#2 ∧ usesDivider .addpar = false ∧
    usesSum .addpar = false := by decide
theorem witness_ConfigurationIsFixed : step (on abc) = .next (on abc) := rfl
theorem witness_OversizeCommandHasNoStep_input : fits (boundedStrict 3)
    (start poly4 16 (boundedStrict 3) poly4).inLen = false := by decide
theorem witness_OversizeCommandHasNoStep_result : Ready (start poly4 8 (boundedStrict 2) [true, true]) [true, true] ∧
    fits (boundedStrict 2) ([true, true].length + 1) = false ∧ [true, true] ≠ ([] : Bits) ∧ legalPoly poly4 = true ∧
    fits (boundedStrict 2) (poly4.length - 1) = false ∧ Accepted (boundedStrict 2).widthPolicy (8 : Nat) ∧
    fits (boundedStrict 2) 8 = false ∧ fits (boundedStrict 2) ([true, true].length + 8) = false := by decide
theorem witness_OversizeCommandHasNoStep_unbounded : Ready (on abc) abc ∧ (on abc).params.maxBits = none := by decide
theorem witness_StepKeepsStateLegal : Legal (issued 0x4000#16 poly4) ∧
    valueOf (step (issued 0x4000#16 poly4)) = some 0 := by decide
theorem witness_CreationGivesFreshInstance :
    ((on abc).setPending [.create [true, false] (-1)]).pending = .create [true, false] (-1) :: [] ∧
    [true, false][0]? = some true ∧ 2 ≤ [true, false].length := by decide
theorem witness_CreationGivesFreshInstance_illegal :
    ((on abc).setPending [.create [true] 16]).pending = .create [true] 16 :: [] ∧ [true].length < 2 ∧
    ((on abc).setPending [.create [false, true] 16]).pending = .create [false, true] 16 :: [] ∧
    [false, true][0]? ≠ some true := by decide
theorem witness_ReadingInvalidatedRegisterFaults : ((on abc).setResponse 1#2 {}).valueIn .val = none ∧
    (on abc).valueIn .inLen ≠ none := by decide
theorem witness_FaultsMeanInvalidatedResult_read : step (((on abc).setResponse 1#2 {}).setPending [.read .val])
    = .fault (.invalidated .val) := rfl
theorem witness_FaultsMeanInvalidatedResult_takeOut : step (((on abc).setResponse 1#2 {}).setPending [.takeOut])
    = .fault (.invalidated .out) := rfl
theorem witness_FrameCrcFormsTheFrame : Ready (on [true]) [true] ∧ codeOf (exec .gencrc (on [true])) = some 0#2 ∧
    fits (on [true]).params ([true].length + 3) = true ∧ Ready (on []) [] ∧
    codeOf (exec .gencrc (on [])) = some 1#2 := by decide
theorem witness_TextCodecSkipsZeroBytes : (bitsOf 7 0).length < 8 := by decide

end Sys2Proof.Tests
end

section
/-! SUPPORT. The integer reading of a bit sequence (00_scope.md R9): the sum that gives it, and that `valOf` and `bitsOf`
are inverse to each other between the sequences of length `N` and the numbers below `2^N`. -/

namespace Sys2Proof.Proofs

open Sys2Proof.Machine

/-- The weight of every bit doubles when a bit is appended at the right: the step of the sum in R9. -/
theorem valOf_eq_sum (s : Bits) :
    valOf s = ∑ i ∈ Finset.range s.length, (s.getD i false).toNat * 2 ^ (s.length - 1 - i) := by
  induction s using List.reverseRecOn with
  | nil => rfl
  | append_singleton s b ih =>
    have hbit : ∀ i ∈ Finset.range s.length,
        ((s ++ [b]).getD i false).toNat * 2 ^ (s.length - i) =
          2 * ((s.getD i false).toNat * 2 ^ (s.length - 1 - i)) := by
      intro i hi
      have hlt : i < s.length := Finset.mem_range.mp hi
      have hexp : s.length - i = s.length - 1 - i + 1 := by omega
      rw [List.getD_append _ _ _ _ hlt, hexp, Nat.pow_succ]
      ring
    have hlast : (s ++ [b]).getD s.length false = b := by simp
    rw [valOf_append, ih, List.length_append, List.length_singleton, Nat.add_sub_cancel,
      Finset.sum_range_succ, Finset.sum_congr rfl hbit, ← Finset.mul_sum, hlast, Nat.sub_self,
      Nat.pow_zero, Nat.mul_one]

/-- The last bit of `bitsOf` is the lowest bit of the number, the others spell its half. -/
theorem bitsOf_succ (n v : Nat) : bitsOf (n + 1) v = bitsOf n (v / 2) ++ [v.testBit 0] := by
  have hbit : ∀ i ∈ List.range n, v.testBit (n - i) = (v / 2).testBit (n - 1 - i) := by
    intro i hi
    have hlt : i < n := List.mem_range.mp hi
    rw [Nat.testBit_div_two]
    congr 1
    omega
  simpa [bitsOf, List.range_succ] using hbit

theorem valOf_bitsOf {n v : Nat} (h : v < 2 ^ n) : valOf (bitsOf n v) = v := by
  induction n generalizing v with
  | zero =>
    have hv : v = 0 := by simpa using h
    rw [hv]
    rfl
  | succ n ih =>
    have hhalf : v / 2 < 2 ^ n := by
      rw [Nat.pow_succ] at h
      omega
    have hlow : (v.testBit 0).toNat = v % 2 := by
      rw [Nat.toNat_testBit, Nat.pow_zero, Nat.div_one]
    rw [bitsOf_succ, valOf_append, ih hhalf, hlow, Nat.div_add_mod]

theorem bitsOf_valOf (s : Bits) : bitsOf s.length (valOf s) = s := by
  induction s using List.reverseRecOn with
  | nil => rfl
  | append_singleton s b ih =>
    have hhalf : (2 * valOf s + b.toNat) / 2 = valOf s := by
      have hb : b.toNat ≤ 1 := Bool.toNat_le b
      omega
    have hlow : (2 * valOf s + b.toNat).testBit 0 = b := by
      cases b <;> simp
    rw [valOf_append, List.length_append, List.length_singleton, bitsOf_succ, hhalf, hlow, ih]

/-- Settles O40: the sum by induction on the last bit; existence and uniqueness of `bits_N(v)` because `valOf` and `bitsOf`
undo each other. -/
theorem integerReadingOfBits : Obligations.IntegerReadingOfBits := by
  refine ⟨valOf_eq_sum, fun n v hv s => ⟨?_, ?_⟩⟩
  · rintro ⟨rfl, rfl⟩
    exact (bitsOf_valOf s).symm
  · rintro rfl
    exact ⟨length_bitsOf n v, valOf_bitsOf hv⟩

end Sys2Proof.Proofs
end

section
/-! SUPPORT. The two ways an operation that answers can end, said once for all thirteen: an error entry
(60_exceptions.md R136), or the results that the table of 10_state.md R18 gives the operation. -/

namespace Sys2Proof.Proofs

open Sys2Proof.Machine

/-- A response holds values in exactly the registers the table gives the operation (R18). -/
def WritesExactly (i : Instr) (r : Response) : Prop :=
  r.out.isSome = writesOut i ∧ r.out2.isSome = writesOut2 i ∧ r.val.isSome = writesVal i ∧
    r.flag.isSome = writesFlag i

/-- The state an operation writes its response into: the one it started in, with the hidden register of its family
loaded (R22, R23). -/
inductive Computes (i : Instr) (s : State) : State → Prop
  | nothing : Computes i s s
  | divided (work : Bits) (huse : usesDivider i = true) : Computes i s (s.setWork work)
  | summed (n : Nat) (huse : usesSum i = true) : Computes i s (s.setSum n)

/-- How an operation that answers can end. -/
inductive Ends (i : Instr) (s : State) : State → Prop
  | error {code : StatusCode} (hcode : code = stInvalidInputLength ∨ code = stInvalidWidth) :
      Ends i s (s.setResponse code {})
  | results {u : State} {r : Response} (hcomp : Computes i s u) (hwrites : WritesExactly i r)
      (hfits : responseFits s.params r = true) (hval : ∀ v, r.val = some v → v < 2 ^ degree s.cfg.poly) :
      Ends i s (u.setResponse stOk r)

/-- A remainder has `d` bits, so its value is a number of `d` bits (R20). -/
theorem valOf_remainder_lt {poly buf w : Bits} (h : divide poly buf = some w) :
    valOf (remainder poly w) < 2 ^ degree poly :=
  length_remainder h ▸ valOf_lt (remainder poly w)

theorem exec_ends {i : Instr} {s t : State} (h : exec i s = .next t) : Ends i s t := by
  match i, h with
  | .addpar, h =>
    obtain ⟨x, -, hfits, rfl⟩ := execAddpar_next h
    exact .results .nothing ⟨rfl, rfl, rfl, rfl⟩ hfits nofun
  | .chkpar, h =>
    obtain ⟨x, -, rfl⟩ := execChkpar_next h
    exact .results .nothing ⟨rfl, rfl, rfl, rfl⟩ rfl nofun
  | .divrem, h =>
    obtain ⟨x, -, ⟨-, rfl⟩ | ⟨w, -, hfits, rfl⟩⟩ := execDivrem_next h
    · exact .error (.inl rfl)
    · exact .results (.divided w rfl) ⟨rfl, rfl, rfl, rfl⟩ hfits nofun
  | .gencrc, h =>
    obtain ⟨x, -, ⟨-, rfl⟩ | ⟨w, -, hfits, rfl⟩⟩ := execGencrc_next h
    · exact .error (.inl rfl)
    · exact .results (.divided w rfl) ⟨rfl, rfl, rfl, rfl⟩ hfits nofun
  | .chkcrc, h =>
    obtain ⟨x, -, ⟨-, rfl⟩ | ⟨w, hdiv, rfl⟩⟩ := execChkcrc_next h
    · exact .error (.inl rfl)
    · refine .results (.divided w rfl) ⟨rfl, rfl, rfl, rfl⟩ rfl fun v hv => ?_
      exact Option.some.inj hv ▸ valOf_remainder_lt hdiv
  | .calcsum _, h | .calcsumD, h =>
    obtain ⟨x, -, ⟨-, rfl⟩ | ⟨n, -, -, hfits, rfl⟩⟩ := calcsum_next h
    · exact .error (.inr rfl)
    · exact .results (.summed _ rfl) ⟨rfl, rfl, rfl, rfl⟩ hfits nofun
  | .addsum _, h | .addsumD, h =>
    obtain ⟨x, -, ⟨-, rfl⟩ | ⟨n, -, -, hfits, rfl⟩⟩ := addsum_next h
    · exact .error (.inr rfl)
    · exact .results (.summed _ rfl) ⟨rfl, rfl, rfl, rfl⟩ hfits nofun
  | .versum _, h | .versumD, h =>
    obtain ⟨x, -, ⟨-, rfl⟩ | ⟨n, -, -, rfl⟩⟩ := versum_next h
    · exact .error (.inr rfl)
    · exact .results (.summed _ rfl) ⟨rfl, rfl, rfl, rfl⟩ rfl nofun
  | .versums _, h | .versumsD, h =>
    obtain ⟨x, -, ⟨-, rfl⟩ | ⟨n, -, -, hfits, rfl⟩⟩ := versums_next h
    · exact .error (.inr rfl)
    · exact .results (.summed _ rfl) ⟨rfl, rfl, rfl, rfl⟩ hfits nofun

/-- An error entry leaves every result register without a value (R136). -/
theorem noResult_setResponse_empty (s : State) (code : StatusCode) : NoResult (s.setResponse code {}) :=
  ⟨rfl, rfl, rfl, rfl, rfl, rfl⟩

/-- Settles O45: an operation that answers ends with an error entry, which leaves no result, or with the response of its
row, which is stored whole. -/
theorem resultRegistersOfEachOperation : Obligations.ResultRegistersOfEachOperation := by
  intro i s t h
  cases exec_ends h with
  | @error code hcode =>
    have hne : code ≠ 0#2 ∧ code ≠ 3#2 := by
      rcases hcode with rfl | rfl <;> decide
    exact ⟨fun hst => absurd hst hne.1, fun _ => noResult_setResponse_empty s code, hne.2⟩
  | results _ hwrites hfits hval =>
    obtain ⟨hout, hout2, hvalue, hflag⟩ := hwrites
    obtain ⟨hfit, hfit2⟩ := Bool.and_eq_true_iff.mp hfits
    have hok : stOk ≠ 3#2 := by decide
    exact ⟨fun _ => ⟨hout, hout2, hvalue, hflag, rfl, rfl, hfit, hfit2, hval⟩, fun hst => absurd rfl hst, hok⟩

end Sys2Proof.Proofs
end

section
/-! SUPPORT. Noninterference (10_state.md R15): two states that hold the same configuration, parameters and input
give every operation the same answer. One congruence per shared operation, then one per meaning. -/

namespace Sys2Proof.Proofs

open Sys2Proof.Machine

/-- Two states agree in all that an operation may read (R15). -/
structure SameInput (s t : State) : Prop where
  cfg : t.cfg = s.cfg
  params : t.params = s.params
  inBuf : t.inBuf = s.inBuf
  inLen : t.inLen = s.inLen

/-- Two outcomes are of one kind and hold the same response, or the same reason to stop. -/
inductive SameAnswer : Result → Result → Prop
  | next {s t : State} (h : SameResponse s t) : SameAnswer (.next s) (.next t)
  | fault (f : Fault) : SameAnswer (.fault f) (.fault f)
  | refused (q : Refusal) : SameAnswer (.refused q) (.refused q)

/-- A response written over any two states is the same in both. -/
theorem sameResponse_setResponse (s t : State) (code : StatusCode) (r : Response) :
    SameResponse (s.setResponse code r) (t.setResponse code r) :=
  ⟨rfl, rfl, rfl, rfl, rfl, rfl, rfl⟩

theorem raise_sameAnswer (code : StatusCode) (s t : State) : SameAnswer (raise code s) (raise code t) :=
  .next (sameResponse_setResponse s t code {})

theorem respond_sameAnswer (r : Response) {s t : State} (hparams : t.params = s.params) :
    SameAnswer (respond r s) (respond r t) := by
  rw [respond, respond, hparams]
  split
  · exact .next (sameResponse_setResponse s t stOk r)
  · exact .refused .notAdmitted

section
variable {s t : State} (h : SameInput s t)
include h

theorem SameInput.inputSeq_eq : inputSeq t = inputSeq s := by
  rw [inputSeq, inputSeq, h.inBuf, h.inLen]

theorem SameInput.defaultWidth_eq : defaultWidth t = defaultWidth s := by
  rw [defaultWidth, defaultWidth, h.cfg]

theorem withInput_sameAnswer {go go' : Bits → Result} (hgo : ∀ x, SameAnswer (go x) (go' x)) :
    SameAnswer (withInput s go) (withInput t go') := by
  rw [withInput, withInput, h.params, h.inLen, h.inputSeq_eq]
  split
  · exact hgo (inputSeq s)
  · exact .refused .notAdmitted

theorem withWidth_sameAnswer (w : Int) {go go' : Nat → Result} (hgo : ∀ n, SameAnswer (go n) (go' n)) :
    SameAnswer (withWidth w s go) (withWidth w t go') := by
  rw [withWidth, withWidth, h.params]
  split
  · exact raise_sameAnswer stInvalidWidth s t
  · exact hgo _

theorem withDivide_sameAnswer (buf : Bits) (r : Bits → Response) :
    SameAnswer (withDivide buf s fun rem => respond (r rem)) (withDivide buf t fun rem => respond (r rem)) := by
  rw [withDivide, withDivide, h.cfg]
  split
  · exact raise_sameAnswer stInvalidInputLength s t
  · exact respond_sameAnswer _ h.params

/-- The checksum operations share one shape: the width test, then a response and `SUM` that the input and the width
give. -/
theorem checksum_sameAnswer {w w' : Int} (hw : w' = w) (r : Bits → Nat → Response) (sum : Bits → Nat → Nat) :
    SameAnswer (withInput s fun x => withWidth w s fun n => respond (r x n) (s.setSum (sum x n)))
      (withInput t fun x => withWidth w' t fun n => respond (r x n) (t.setSum (sum x n))) := by
  subst hw
  exact withInput_sameAnswer h fun x => withWidth_sameAnswer h w' fun n => respond_sameAnswer (r x n) h.params

theorem execAddpar_sameAnswer : SameAnswer (execAddpar s) (execAddpar t) :=
  withInput_sameAnswer h fun _ => respond_sameAnswer _ h.params

theorem execChkpar_sameAnswer : SameAnswer (execChkpar s) (execChkpar t) :=
  withInput_sameAnswer h fun _ => respond_sameAnswer _ h.params

theorem execDivrem_sameAnswer : SameAnswer (execDivrem s) (execDivrem t) :=
  withInput_sameAnswer h fun x => withDivide_sameAnswer h x _

/-- The padding too depends on the configuration alone. -/
theorem execGencrc_sameAnswer : SameAnswer (execGencrc s) (execGencrc t) := by
  rw [execGencrc, execGencrc, h.cfg]
  exact withInput_sameAnswer h fun x => withDivide_sameAnswer h (x ++ zeros (degree s.cfg.poly)) _

theorem execChkcrc_sameAnswer : SameAnswer (execChkcrc s) (execChkcrc t) :=
  withInput_sameAnswer h fun x => withDivide_sameAnswer h x _

theorem calcsum_sameAnswer {w w' : Int} (hw : w' = w) : SameAnswer (calcsum w s) (calcsum w' t) :=
  checksum_sameAnswer h hw _ _

theorem addsum_sameAnswer {w w' : Int} (hw : w' = w) : SameAnswer (addsum w s) (addsum w' t) :=
  checksum_sameAnswer h hw _ _

theorem versum_sameAnswer {w w' : Int} (hw : w' = w) : SameAnswer (versum w s) (versum w' t) :=
  checksum_sameAnswer h hw _ _

theorem versums_sameAnswer {w w' : Int} (hw : w' = w) : SameAnswer (versums w s) (versums w' t) :=
  checksum_sameAnswer h hw _ _

theorem exec_sameAnswer (i : Instr) : SameAnswer (exec i s) (exec i t) :=
  match i with
  | .addpar => execAddpar_sameAnswer h
  | .chkpar => execChkpar_sameAnswer h
  | .divrem => execDivrem_sameAnswer h
  | .gencrc => execGencrc_sameAnswer h
  | .chkcrc => execChkcrc_sameAnswer h
  | .calcsum _ => calcsum_sameAnswer h rfl
  | .calcsumD => calcsum_sameAnswer h h.defaultWidth_eq
  | .addsum _ => addsum_sameAnswer h rfl
  | .addsumD => addsum_sameAnswer h h.defaultWidth_eq
  | .versum _ => versum_sameAnswer h rfl
  | .versumD => versum_sameAnswer h h.defaultWidth_eq
  | .versums _ => versums_sameAnswer h rfl
  | .versumsD => versums_sameAnswer h h.defaultWidth_eq

end

/-- Settles O47: the two states agree in all that an operation reads, so the answers are of one kind. -/
theorem responseIgnoresHistory : Obligations.ResponseIgnoresHistory := by
  intro i s t hcfg hparams hinBuf hinLen
  have hsame := exec_sameAnswer ⟨hcfg, hparams, hinBuf, hinLen⟩ i
  generalize exec i s = a, exec i t = b at hsame
  cases hsame with
  | next hresp => exact ⟨fun s' hs => ⟨_, rfl, Host.Outcome.next.inj hs ▸ hresp⟩, nofun, nofun⟩
  | fault f => exact ⟨nofun, fun _ hf => hf, nofun⟩
  | refused q => exact ⟨nofun, nofun, fun _ hq => hq⟩

end Sys2Proof.Proofs
end

section
/-! SUPPORT. The shape of every operation, said once: it samples its input and then does what its family does, the
ParityCoder (40_parity.md), the divider (41_crc_divider.md) or the checksum (42_checksum.md). -/

namespace Sys2Proof.Proofs

open Sys2Proof.Machine

/-- What the three families do with a sampled input; of the state they read no more than `CFG` and the parameters. -/
inductive Family : (State → Bits → Result) → Prop
  | parity (r : Bits → Response) : Family fun s x => respond (r x) s
  | divider (operand : Cfg → Bits → Bits) (r : Bits → Response) :
      Family fun s x => withDivide (operand s.cfg x) s fun rem => respond (r rem)
  | checksum (w : Cfg → Int) (r : Bits → Nat → Response) (sum : Bits → Nat → Nat) :
      Family fun s x => withWidth (w s.cfg) s fun n => respond (r x n) (s.setSum (sum x n))

theorem exec_family (i : Instr) : ∃ go, Family go ∧ ∀ s, exec i s = withInput s (go s) :=
  match i with
  | .addpar => ⟨_, .parity _, execAddpar.eq_def⟩
  | .chkpar => ⟨_, .parity _, execChkpar.eq_def⟩
  | .divrem => ⟨_, .divider (fun _ x => x) _, execDivrem.eq_def⟩
  | .gencrc => ⟨_, .divider (fun c x => x ++ zeros (degree c.poly)) _, execGencrc.eq_def⟩
  | .chkcrc => ⟨_, .divider (fun _ x => x) _, execChkcrc.eq_def⟩
  | .calcsum wf => ⟨_, .checksum (fun _ => fieldWidth wf) _ _, fun s => calcsum.eq_def (fieldWidth wf) s⟩
  | .calcsumD => ⟨_, .checksum Cfg.defw _ _, fun s => calcsum.eq_def (defaultWidth s) s⟩
  | .addsum wf => ⟨_, .checksum (fun _ => fieldWidth wf) _ _, fun s => addsum.eq_def (fieldWidth wf) s⟩
  | .addsumD => ⟨_, .checksum Cfg.defw _ _, fun s => addsum.eq_def (defaultWidth s) s⟩
  | .versum wf => ⟨_, .checksum (fun _ => fieldWidth wf) _ _, fun s => versum.eq_def (fieldWidth wf) s⟩
  | .versumD => ⟨_, .checksum Cfg.defw _ _, fun s => versum.eq_def (defaultWidth s) s⟩
  | .versums wf => ⟨_, .checksum (fun _ => fieldWidth wf) _ _, fun s => versums.eq_def (fieldWidth wf) s⟩
  | .versumsD => ⟨_, .checksum Cfg.defw _ _, fun s => versums.eq_def (defaultWidth s) s⟩

end Sys2Proof.Proofs
end

section
/-! SUPPORT. Repeating a command (20_memory.md R39): an operation writes nothing it reads, and run again from the state
it left it writes the same values over themselves, the hidden registers included. -/

namespace Sys2Proof.Proofs

open Sys2Proof.Machine

/-- No operation writes what an operation may read. -/
theorem sameInput_of_exec {i : Instr} {s t : State} (h : exec i s = .next t) : SameInput s t := by
  cases exec_ends h with
  | error _ => exact ⟨rfl, rfl, rfl, rfl⟩
  | results hcomp =>
    cases hcomp with
    | nothing | divided | summed => exact ⟨rfl, rfl, rfl, rfl⟩

theorem SameInput.ready {s t : State} (hin : SameInput s t) {x : Bits} (hx : Ready s x) : Ready t x :=
  ⟨hin.inputSeq_eq.trans hx.1, hin.params ▸ hx.2⟩

/-- A response written over itself leaves the state as it is. -/
theorem respond_again {r : Response} {s t : State} (h : respond r s = .next t) : respond r t = .next t := by
  obtain ⟨hfits, rfl⟩ := respond_next.mp h
  exact respond_next.mpr ⟨hfits, rfl⟩

/-- The second division loads `WORK` with what it holds. -/
theorem withDivide_again {buf : Bits} {r : Bits → Response} {s t : State}
    (h : withDivide buf s (fun rem => respond (r rem)) = .next t) :
    withDivide buf t (fun rem => respond (r rem)) = .next t := by
  rcases withDivide_next h with ⟨hshort, rfl⟩ | ⟨w, hdiv, hresp⟩
  · exact Eq.trans (withDivide_short (by simpa using hshort) _) rfl
  · obtain ⟨hfits, rfl⟩ := respond_next.mp hresp
    exact Eq.trans (withDivide_some (by simpa using hdiv) _) (respond_next.mpr ⟨hfits, rfl⟩)

/-- The second sum loads `SUM` with what it holds. -/
theorem withWidth_again {w : Int} {r : Nat → Response} {sum : Nat → Nat} {s t : State}
    (h : withWidth w s (fun n => respond (r n) (s.setSum (sum n))) = .next t) :
    withWidth w t (fun n => respond (r n) (t.setSum (sum n))) = .next t := by
  rcases withWidth_next h with ⟨hbad, rfl⟩ | ⟨n, rfl, hacc, hresp⟩
  · exact Eq.trans (withWidth_of_not_accepted (by simpa using hbad) _) rfl
  · obtain ⟨hfits, rfl⟩ := respond_next.mp hresp
    exact Eq.trans (withWidth_of_accepted (by simpa using hacc) _) (respond_next.mpr ⟨hfits, rfl⟩)

theorem Family.again {go : State → Bits → Result} (hgo : Family go) {s t : State} (hcfg : t.cfg = s.cfg) {x : Bits}
    (h : go s x = .next t) : go t x = .next t := by
  cases hgo with
  | parity => exact respond_again h
  | divider =>
    simp only [hcfg]
    exact withDivide_again h
  | checksum =>
    simp only [hcfg]
    exact withWidth_again h

theorem exec_again {i : Instr} {s t : State} (h : exec i s = .next t) : exec i t = .next t := by
  have hin := sameInput_of_exec h
  obtain ⟨go, hgo, hexec⟩ := exec_family i
  rw [hexec] at h ⊢
  obtain ⟨x, hx, hnext⟩ := withInput_next h
  rw [withInput_of_ready (hin.ready hx)]
  exact hgo.again hin.cfg hnext

theorem readRegister_next {r : Reg} {s t : State} (h : readRegister r s = .next t) : t = s := by
  rw [readRegister] at h
  split at h
  · exact (Host.Outcome.next.inj h).symm
  · cases h

/-- Settles O48: a repeated operation writes its own results over themselves; another one in between leaves the input as
it was, so the response is the same (R15). -/
theorem commandsAreIdempotent : Obligations.CommandsAreIdempotent := by
  refine ⟨fun _ _ _ h => exec_again h, fun i j s t u hi hj => ?_, fun _ _ _ h => readRegister_next h⟩
  have hin := sameInput_of_exec hj
  exact (responseIgnoresHistory i s u hin.cfg hin.params hin.inBuf hin.inLen).1 t hi

end Sys2Proof.Proofs
end

section
/-! SUPPORT. Admission (20_memory.md R33): an input or a result longer than `MAX_BITS` has no step, and nothing else
keeps an operation from ending. -/

namespace Sys2Proof.Proofs

open Sys2Proof.Machine

theorem withInput_of_not_fits {s : State} (h : fits s.params s.inLen = false) (go : Bits → Result) :
    withInput s go = .refused .notAdmitted := by
  simp [withInput, h]

/-! ### A result that does not fit -/

theorem respond_refused_of_out {s : State} {r : Response} {o : Bits} (hout : r.out = some o)
    (hlong : fits s.params o.length = false) : respond r s = .refused .notAdmitted := by
  have hbuf : bufFits s.params r.out = false := by rw [hout]; exact hlong
  exact respond_refused.mpr ⟨by rw [responseFits, hbuf, Bool.false_and], rfl⟩

section
variable {s : State} {x : Bits} (hx : Ready s x)
include hx

theorem execAddpar_refused (hlong : fits s.params (x.length + 1) = false) :
    execAddpar s = .refused .notAdmitted := by
  rw [execAddpar, withInput_of_ready hx]
  exact respond_refused_of_out rfl (by rwa [List.length_append, List.length_singleton])

/-- A payload of one bit is enough for the division: the `d` zeros are the rest of `L` bits. -/
theorem execGencrc_refused (hne : x ≠ []) (hlong : fits s.params (degree s.cfg.poly) = false) :
    execGencrc s = .refused .notAdmitted := by
  have hpos : 0 < x.length := List.length_pos_of_ne_nil hne
  have hlen : ¬ (x ++ zeros (degree s.cfg.poly)).length < s.cfg.poly.length := by
    rw [List.length_append, length_zeros, degree]
    omega
  obtain ⟨w, hdiv⟩ := Option.ne_none_iff_exists'.mp fun hnone => hlen (divide_eq_none.mp hnone)
  rw [execGencrc, withInput_of_ready hx, withDivide_some hdiv]
  exact respond_refused_of_out rfl (by rwa [length_remainder hdiv])

variable {n : Nat} (hacc : Accepted s.params.widthPolicy n)
include hacc

/-- The checksum operations share one shape: with an accepted width, a main result that does not fit ends them. -/
theorem checksum_refused {r : Bits → Nat → Response} {sum : Bits → Nat → Nat} {o : Bits}
    (hout : (r x n).out = some o) (hlong : fits s.params o.length = false) :
    withInput s (fun x => withWidth n s fun n => respond (r x n) (s.setSum (sum x n))) = .refused .notAdmitted := by
  rw [withInput_of_ready hx, withWidth_of_accepted hacc]
  exact respond_refused_of_out hout hlong

theorem calcsum_refused (hlong : fits s.params n = false) : calcsum n s = .refused .notAdmitted :=
  checksum_refused hx hacc rfl (by rwa [length_checksum])

theorem versums_refused (hlong : fits s.params n = false) : versums n s = .refused .notAdmitted :=
  checksum_refused hx hacc rfl (by rwa [length_checksum])

theorem addsum_refused (hlong : fits s.params (x.length + n) = false) : addsum n s = .refused .notAdmitted :=
  checksum_refused hx hacc rfl (by rwa [List.length_append, length_checksum])

end

/-! ### Unbounded buffers -/

section
variable {s : State} (hfree : s.params.maxBits = none)
include hfree

theorem bufFits_of_unbounded (b : Option Bits) : bufFits s.params b = true := by
  cases b with
  | none => rfl
  | some o => rw [bufFits, fits, hfree]

theorem respond_of_unbounded (r : Response) : respond r s = .next (s.setResponse stOk r) := by
  rw [respond, responseFits, bufFits_of_unbounded hfree, bufFits_of_unbounded hfree]
  rfl

theorem withDivide_of_unbounded (buf : Bits) (r : Bits → Response) :
    ∃ t, withDivide buf s (fun rem => respond (r rem)) = .next t := by
  cases hdiv : divide s.cfg.poly buf with
  | none => exact ⟨_, withDivide_short (divide_eq_none.mp hdiv) _⟩
  | some w => exact ⟨_, (withDivide_some hdiv _).trans (respond_of_unbounded (s := s.setWork w) hfree _)⟩

theorem withWidth_of_unbounded (w : Int) (r : Nat → Response) (sum : Nat → Nat) :
    ∃ t, withWidth w s (fun n => respond (r n) (s.setSum (sum n))) = .next t := by
  rw [withWidth]
  split
  · exact ⟨_, rfl⟩
  · exact ⟨_, respond_of_unbounded (by simpa using hfree) _⟩

theorem Family.answers {go : State → Bits → Result} (hgo : Family go) (x : Bits) : ∃ t, go s x = .next t := by
  cases hgo with
  | parity r => exact ⟨_, respond_of_unbounded hfree (r x)⟩
  | divider operand r => exact withDivide_of_unbounded hfree (operand s.cfg x) r
  | checksum w r sum => exact withWidth_of_unbounded hfree (w s.cfg) (r x) (sum x)

theorem exec_of_unbounded (i : Instr) {x : Bits} (hx : Ready s x) : ∃ t, exec i s = .next t := by
  obtain ⟨go, hgo, hexec⟩ := exec_family i
  rw [hexec, withInput_of_ready hx]
  exact hgo.answers hfree x

end

/-- Settles O51: an input too long stops every operation where it samples, a result too long where it responds; with no
bound neither can happen. -/
theorem oversizeCommandHasNoStep : Obligations.OversizeCommandHasNoStep := by
  refine ⟨fun i s hlong => ?_, fun s x hx => ⟨execAddpar_refused hx, fun _ => execGencrc_refused hx,
    fun n hacc => ⟨fun hlong i hi => ?_, fun hlong i hi => ?_⟩⟩, fun i s x hx hfree => exec_of_unbounded hfree i hx⟩
  · obtain ⟨go, -, hexec⟩ := exec_family i
    exact (hexec s).trans (withInput_of_not_fits hlong (go s))
  · have hcalc := calcsum_refused hx hacc hlong
    have hvers := versums_refused hx hacc hlong
    rcases hi with rfl | rfl | ⟨hdefw, rfl | rfl⟩
    · exact hcalc
    · exact hvers
    · exact (congrArg (calcsum · s) hdefw).trans hcalc
    · exact (congrArg (versums · s) hdefw).trans hvers
  · have hadd := addsum_refused hx hacc hlong
    rcases hi with rfl | ⟨rfl, hdefw⟩
    · exact hadd
    · exact (congrArg (addsum · s) hdefw).trans hadd

end Sys2Proof.Proofs
end

section
/-! SUPPORT. The decoder (30_encoding.md R57, R58, R60): no word matches two rows of the table, so decoding answers the row
that matches, whichever it is, and a word that matches none is reserved. -/

namespace Sys2Proof.Proofs

open Sys2Proof.Machine

theorem rowMatches_iff {w : CommandWord} {r : Row} : rowMatches w r = true ↔ w &&& r.mask = r.pattern := beq_iff_eq

/-- Any two rows of the table differ in a bit that both masks keep. -/
theorem rows_disjoint : ∀ r ∈ rows, ∀ r' ∈ rows, r.pattern &&& r'.mask = r'.pattern &&& r.mask → r = r' := by decide

/-- The bits of a word that both masks keep belong to both patterns. -/
theorem row_unique {w : CommandWord} {r r' : Row} (hr : r ∈ rows) (hr' : r' ∈ rows) (h : w &&& r.mask = r.pattern)
    (h' : w &&& r'.mask = r'.pattern) : r = r' := by
  refine rows_disjoint r hr r' hr' ?_
  calc r.pattern &&& r'.mask = w &&& r.mask &&& r'.mask := by rw [h]
    _ = w &&& r'.mask &&& r.mask := by rw [BitVec.and_assoc, BitVec.and_comm r.mask, BitVec.and_assoc]
    _ = r'.pattern &&& r.mask := by rw [h']

theorem find?_rows_eq_none {w : CommandWord} :
    rows.find? (rowMatches w) = none ↔ ∀ r ∈ rows, w &&& r.mask ≠ r.pattern := by
  simp only [List.find?_eq_none, rowMatches_iff, ne_eq]

theorem find?_rows_eq_some {w : CommandWord} {r : Row} :
    rows.find? (rowMatches w) = some r ↔ r ∈ rows ∧ w &&& r.mask = r.pattern := by
  constructor
  · intro h
    exact ⟨List.mem_of_find?_eq_some h, rowMatches_iff.mp (List.find?_some h)⟩
  · rintro ⟨hmem, hmatch⟩
    cases hfind : rows.find? (rowMatches w) with
    | none => exact absurd hmatch (find?_rows_eq_none.mp hfind r hmem)
    | some r' =>
      have hmatch' := rowMatches_iff.mp (List.find?_some hfind)
      rw [row_unique (List.mem_of_find?_eq_some hfind) hmem hmatch' hmatch]

theorem decode_eq_ok {w : CommandWord} {i : Instr} :
    decode w = .ok i ↔ ∃ r ∈ rows, w &&& r.mask = r.pattern ∧ withWidthField (wfField w) r.instr = i := by
  have hsome : decode w = .ok i ↔
      ∃ r, rows.find? (rowMatches w) = some r ∧ withWidthField (wfField w) r.instr = i := by
    rw [decode]
    cases rows.find? (rowMatches w) <;> simp
  simp only [hsome, find?_rows_eq_some, and_assoc]

theorem decode_eq_error {w : CommandWord} {why : Reserved} :
    decode w = .error why ↔ (∀ r ∈ rows, w &&& r.mask ≠ r.pattern) ∧ why = reservedReason w := by
  rw [decode, ← find?_rows_eq_none]
  cases rows.find? (rowMatches w) <;> simp [eq_comm]

theorem exists_decode_eq_error {w : CommandWord} :
    (∃ why, decode w = .error why) ↔ ∀ r ∈ rows, w &&& r.mask ≠ r.pattern := by
  simp only [decode_eq_error, exists_and_left, exists_eq, and_true]

/-! ### The fields and masks of a word as arithmetic (R53) -/

theorem opField_eq (w : CommandWord) : opField w = w.toNat / 4096 := by
  have hw := w.isLt
  rw [opField, BitVec.extractLsb'_toNat, Nat.shiftRight_eq_div_pow]
  omega

theorem zField_eq (w : CommandWord) : zField w = w.toNat / 256 % 8 := by
  rw [zField, BitVec.extractLsb'_toNat, Nat.shiftRight_eq_div_pow]

theorem wfField_eq (w : CommandWord) : wfField w = (w &&& 0x00FF#16).toNat := by
  rw [wfField, BitVec.extractLsb'_toNat, BitVec.toNat_and]
  exact (Nat.and_two_pow_sub_one_eq_mod w.toNat 8).symm

theorem and_FFFF_eq_iff {w p : CommandWord} : w &&& 0xFFFF#16 = p ↔ w.toNat = p.toNat := by
  rw [show 0xFFFF#16 = BitVec.allOnes 16 from rfl, BitVec.and_allOnes, BitVec.toNat_inj]

theorem toNat_and_FF00 (w : CommandWord) : (w &&& 0xFF00#16).toNat = w.toNat / 256 * 256 := by
  have hw := w.isLt
  have hshift : w &&& 0xFF00#16 = w >>> 8 <<< 8 := by
    rw [BitVec.shiftLeft_ushiftRight]
    rfl
  rw [hshift, BitVec.toNat_shiftLeft, BitVec.toNat_ushiftRight, Nat.shiftLeft_eq, Nat.shiftRight_eq_div_pow]
  omega

theorem and_FF00_eq_iff {w p : CommandWord} : w &&& 0xFF00#16 = p ↔ w.toNat / 256 * 256 = p.toNat := by
  rw [← toNat_and_FF00, BitVec.toNat_inj]

/-! ### Which words are reserved (R60) -/

/-- The four groups of R60, by the number that the word spells: `OP` from 9, `Z` not zero, an operation without operand
with `DW` or `WF`, a default-width form with `WF`. -/
def InReservedGroup (n : Nat) : Prop :=
  9 ≤ n / 4096 ∨ n / 256 % 8 ≠ 0 ∨ (n / 4096 ≤ 4 ∧ (n / 2048 % 2 = 1 ∨ n % 256 ≠ 0)) ∨
    (5 ≤ n / 4096 ∧ n / 4096 ≤ 8 ∧ n / 2048 % 2 = 1 ∧ n % 256 ≠ 0)

/-- A row asks for a whole word or for a high byte, so it is missed in one of the word's fields. -/
theorem no_row_iff {w : CommandWord} : (∀ r ∈ rows, w &&& r.mask ≠ r.pattern) ↔ InReservedGroup w.toNat := by
  simp only [rows, List.forall_mem_cons, List.not_mem_nil, ne_eq, and_FFFF_eq_iff, and_FF00_eq_iff, InReservedGroup,
    BitVec.reduceToNat, false_implies, implies_true, and_true]
  omega

/-- Of a default-width form's word with a width field, the first group of R60's order is the fourth (log 10). -/
theorem decode_eq_strayWidth {w : CommandWord} (hop : 5 ≤ w.toNat / 4096 ∧ w.toNat / 4096 ≤ 8)
    (hdw : w.toNat / 2048 % 2 = 1) (hz : w.toNat / 256 % 8 = 0) (hwf : w.toNat % 256 ≠ 0) :
    decode w = .error .strayWidth := by
  have hreason : reservedReason w = .strayWidth := by
    rw [reservedReason, opField_eq, zField_eq, if_neg (by omega), if_neg (by omega), if_neg (by omega)]
  refine decode_eq_error.mpr ⟨no_row_iff.mpr ?_, hreason.symm⟩
  exact .inr (.inr (.inr ⟨hop.1, hop.2, hdw, hwf⟩))

theorem issueCommand_of_reserved {s : State} {why : Reserved} (h : decode s.cmd = .error why) :
    issueCommand s = .refused (.reservedWord why) := by
  rw [issueCommand, h]

/-- Settles O3: decoding answers the matching row, and an instruction stands in one row only. -/
theorem commandWordSelectsItsRow : Obligations.CommandWordSelectsItsRow := by
  intro w i
  rw [decode_eq_ok, wfField_eq]
  -- of the thirteen rows, the ones with another constructor cannot answer `i`
  cases i <;> simp [rows, withWidthField, eq_comm]

/-- Settles O4: a word is reserved when it matches no row, and issuing stops at the decoder's answer. -/
theorem reservedWordsAreRefused : Obligations.ReservedWordsAreRefused := by
  refine ⟨fun w => exists_decode_eq_error.trans no_row_iff, ?_⟩
  rintro s _ why rfl hdecode
  exact issueCommand_of_reserved hdecode

end Sys2Proof.Proofs
end

section
/-! SUPPORT. The default-width forms (30_encoding.md R55): the width `W` enters a checksum operation through its width test
alone, and the test has one answer for every width that is not positive (42_checksum.md R100). -/

namespace Sys2Proof.Proofs

open Sys2Proof.Machine

/-- R100: no policy accepts a width that is not positive. -/
theorem withWidth_of_nonpos {w : Int} (hw : w ≤ 0) (s : State) (go : Nat → Result) :
    withWidth w s go = raise stInvalidWidth s :=
  withWidth_of_not_accepted (fun hacc => absurd hacc.1 (by omega)) go

/-- Two forms whose widths pass the test alike answer alike. -/
theorem exec_defaultForm_eq {s : State} {n : Nat}
    (h : ∀ go, withWidth (defaultWidth s) s go = withWidth (fieldWidth n) s go) :
    exec .calcsumD s = exec (.calcsum n) s ∧ exec .addsumD s = exec (.addsum n) s ∧
      exec .versumD s = exec (.versum n) s ∧ exec .versumsD s = exec (.versums n) s := by
  simp only [exec, execCalcsum, execCalcsumD, execAddsum, execAddsumD, execVersum, execVersumD, execVersums,
    execVersumsD, calcsum, addsum, versum, versums, h, and_self]

/-- Settles O8: with `DEFW = n` both forms test the same width, and a negative `DEFW` fails the test as 0 does. -/
theorem defaultWidthFormUsesDefw : Obligations.DefaultWidthFormUsesDefw := by
  refine ⟨rfl, rfl, rfl, rfl, fun k hpos hlt p hp => ?_, fun s n hdefw => ?_, fun s hneg => ?_⟩
  · have hform : p = 0x5800 ∨ p = 0x6800 ∨ p = 0x7800 ∨ p = 0x8800 := by simpa using hp
    have hnum : (BitVec.ofNat 16 (p + k)).toNat = p + k := by
      rw [BitVec.toNat_ofNat]
      omega
    apply decode_eq_strayWidth <;> rw [hnum] <;> omega
  · have hwidth : defaultWidth s = fieldWidth n := hdefw
    exact exec_defaultForm_eq fun go => by rw [hwidth]
  · have hdefw : defaultWidth s ≤ 0 := le_of_lt hneg
    have hzero : fieldWidth 0 ≤ 0 := le_refl 0
    exact exec_defaultForm_eq fun go => by rw [withWidth_of_nonpos hdefw, withWidth_of_nonpos hzero]

end Sys2Proof.Proofs
end

section
/-! SUPPORT. The ParityCoder (40_parity.md): both operations write a response that the sampled input alone gives, over a
state in which they change nothing else. -/

namespace Sys2Proof.Proofs

open Sys2Proof.Machine

/-! ### What writing a response leaves in the state -/

theorem hasResponse_setResponse (s : State) (code : StatusCode) (r : Response) :
    HasResponse (s.setResponse code r) code r.out r.out2 r.val r.flag :=
  ⟨rfl, rfl, rfl, rfl, rfl, rfl, rfl⟩

theorem sameRest_setResponse (s : State) (code : StatusCode) (r : Response) : SameRest s (s.setResponse code r) :=
  ⟨rfl, rfl, rfl, rfl, rfl, rfl⟩

theorem sameHidden_setResponse (s : State) (code : StatusCode) (r : Response) : SameHidden s (s.setResponse code r) :=
  ⟨rfl, rfl⟩

/-! ### The two operations on a ready input -/

theorem parityBit_eq_decide (x : Bits) : parityBit x = decide (x.count true % 2 = 1) := beq_eq_decide _ _

theorem evenFlag_eq_decide (x : Bits) : evenFlag x = decide (x.count true % 2 = 0) := beq_eq_decide _ _

/-- A response of `OUT` alone fits when its sequence does. -/
theorem responseFits_out {p : Params} {o : Bits} (h : fits p o.length = true) :
    responseFits p { out := some o } = true :=
  Bool.and_eq_true_iff.mpr ⟨h, rfl⟩

theorem execAddpar_of_ready {s : State} {x : Bits} (hx : Ready s x) (hfits : fits s.params (x.length + 1) = true) :
    execAddpar s = .next (s.setResponse stOk { out := some (x ++ [parityBit x]) }) := by
  rw [execAddpar, withInput_of_ready hx, respond_next]
  exact ⟨responseFits_out (by rwa [List.length_append, List.length_singleton]), rfl⟩

/-- A response without sequences fits every buffer, so `CHKPAR` answers on every input. -/
theorem execChkpar_of_ready {s : State} {x : Bits} (hx : Ready s x) :
    execChkpar s = .next (s.setResponse stOk { flag := some (evenFlag x) }) := by
  rw [execChkpar, withInput_of_ready hx, respond_next]
  exact ⟨rfl, rfl⟩

/-! ### The configuration -/

/-- An operation whose response the input alone gives ends with `ST = 0`, and `CFG` passes through it unread (R70). -/
theorem withInput_respond_setCfg {s t : State} (r : Bits → Response) (c : Cfg)
    (h : withInput s (fun x => respond (r x) s) = .next t) :
    t.st = stOk ∧
      withInput { s with cfg := c } (fun x => respond (r x) { s with cfg := c }) = .next { t with cfg := c } := by
  obtain ⟨x, hx, hresp⟩ := withInput_next h
  obtain ⟨hfits, rfl⟩ := respond_next.mp hresp
  have hx' : Ready { s with cfg := c } x := hx
  refine ⟨rfl, ?_⟩
  rw [withInput_of_ready hx', respond_next]
  exact ⟨hfits, rfl⟩

/-- Settles O9: the response is the input with the parity bit, and writing it is all that happens. -/
theorem addparAppendsParityBit : Obligations.AddparAppendsParityBit := by
  refine ⟨rfl, fun s x hx hfits => ⟨_, execAddpar_of_ready hx hfits, ?_⟩⟩
  rw [parityBit_eq_decide]
  exact ⟨hasResponse_setResponse s stOk _, sameRest_setResponse s stOk _, sameHidden_setResponse s stOk _⟩

/-- Settles O11: the response is the flag, and writing it is all that happens. -/
theorem chkparTestsEvenness : Obligations.ChkparTestsEvenness := by
  refine ⟨rfl, fun s x hx => ⟨_, execChkpar_of_ready hx, ?_⟩⟩
  rw [evenFlag_eq_decide]
  exact ⟨hasResponse_setResponse s stOk _, sameRest_setResponse s stOk _, sameHidden_setResponse s stOk _⟩

/-- Settles O12: both operations respond with what the input alone gives. -/
theorem parityReadsNoConfiguration : Obligations.ParityReadsNoConfiguration := by
  rintro s t c i (rfl | rfl) h
  · exact withInput_respond_setCfg (fun x => { out := some (x ++ [parityBit x]) }) c h
  · exact withInput_respond_setCfg (fun x => { flag := some (evenFlag x) }) c h

end Sys2Proof.Proofs
end

section
/-! SUPPORT. The three divider operations (41_crc_divider.md R84, R86, R89) do one thing with a sampled input: divide an
operand and respond with the remainder, or raise `InvalidInputLength` on an operand shorter than the polynomial. -/

namespace Sys2Proof.Proofs

open Sys2Proof.Machine

/-! ### The division of an operand that is long enough -/

theorem exists_divide_of_le {poly buf : Bits} (h : poly.length ≤ buf.length) : ∃ w, divide poly buf = some w :=
  Option.ne_none_iff_exists'.mp fun hnone => absurd (divide_eq_none.mp hnone) (Nat.not_lt.mpr h)

theorem divRem_of_divide {poly buf w : Bits} (h : divide poly buf = some w) :
    divRem poly buf = some (remainder poly w) := by
  rw [divRem, h, Option.map_some]

/-- A buffer that holds a sequence holds every shorter one. -/
theorem fits_of_le {p : Params} {a b : Nat} (hab : a ≤ b) (hb : fits p b = true) : fits p a = true := by
  cases hmax : p.maxBits with
  | none => simp [fits, hmax]
  | some m =>
    have hbm : b ≤ m := by simpa [fits, hmax] using hb
    simpa [fits, hmax] using hab.trans hbm

theorem two_le_length_of_legalPoly {poly : Bits} (h : legalPoly poly = true) : 2 ≤ poly.length :=
  of_decide_eq_true (Bool.and_eq_true_iff.mp h).2

/-! ### An operation that divides an operand and responds with the remainder -/

section
variable {i : Instr} {s : State} {buf : Bits} {r : Bits → Response}
  (hexec : exec i s = withDivide buf s fun rem => respond (r rem))
include hexec

/-- The response is the one to the remainder of `d` bits, and only `WORK` changes besides (R22, R81). -/
theorem answers_remainder (hlen : s.cfg.poly.length ≤ buf.length)
    (hfits : ∀ rem : Bits, rem.length = degree s.cfg.poly → responseFits s.params (r rem) = true) :
    ∃ rem, divRem s.cfg.poly buf = some rem ∧ rem.length = degree s.cfg.poly ∧
      Answers i s fun t =>
        HasResponse t stOk (r rem).out (r rem).out2 (r rem).val (r rem).flag ∧ SameRest s t ∧ t.sum = s.sum := by
  obtain ⟨w, hdiv⟩ := exists_divide_of_le hlen
  have hrem := length_remainder hdiv
  have hnext : exec i s = .next ((s.setWork w).setResponse stOk (r (remainder s.cfg.poly w))) := by
    rw [hexec, withDivide_some hdiv, respond_next]
    exact ⟨hfits _ hrem, rfl⟩
  exact ⟨_, divRem_of_divide hdiv, hrem, _, hnext, hasResponse_setResponse _ _ _,
    sameRest_setResponse (s.setWork w) _ _, rfl⟩

/-- A short operand is an error entry before `WORK` is loaded (R82, 60_exceptions.md R136). -/
theorem answers_lengthError (hshort : buf.length < s.cfg.poly.length) :
    Answers i s fun t => ErrorEntry s t stInvalidInputLength :=
  ⟨_, hexec.trans (withDivide_short hshort _), hasResponse_setResponse _ _ _, sameRest_setResponse _ _ _,
    sameHidden_setResponse _ _ _⟩

end

/-! ### The three operations on a ready input -/

section
variable {s : State} {x : Bits} (hx : Ready s x)
include hx

theorem exec_divrem_of_ready : exec .divrem s = withDivide x s fun rem => respond { out := some rem } := by
  rw [exec, execDivrem, withInput_of_ready hx]

theorem exec_gencrc_of_ready :
    exec .gencrc s = withDivide (x ++ zeros (degree s.cfg.poly)) s fun rem => respond { out := some rem } := by
  rw [exec, execGencrc, withInput_of_ready hx]

theorem exec_chkcrc_of_ready : exec .chkcrc s = withDivide x s fun rem => respond { val := some (valOf rem) } := by
  rw [exec, execChkcrc, withInput_of_ready hx]

end

/-- The `d` zeros complete a payload to the length of the polynomial unless it is empty (R86, R88). -/
theorem length_le_padded_iff {poly : Bits} (hpoly : legalPoly poly = true) (x : Bits) :
    poly.length ≤ (x ++ zeros (degree poly)).length ↔ x ≠ [] := by
  have htwo := two_le_length_of_legalPoly hpoly
  rw [List.length_append, length_zeros, degree, ← List.length_pos_iff]
  omega

/-- Settles O15: the operand is the input, and a remainder is shorter than it, so it fits where the input fits. -/
theorem divremReturnsRemainder : Obligations.DivremReturnsRemainder := by
  refine ⟨rfl, fun s x hx => ⟨fun hlen => ?_, answers_lengthError (exec_divrem_of_ready hx)⟩⟩
  refine answers_remainder (exec_divrem_of_ready hx) hlen fun rem hrem => responseFits_out ?_
  have hle : rem.length ≤ x.length := hrem ▸ (Nat.sub_le _ 1).trans hlen
  exact fits_of_le hle hx.2

/-- Settles O16: the operand is the padded payload, which is short exactly when the payload is empty. -/
theorem gencrcReturnsCrc : Obligations.GencrcReturnsCrc := by
  refine ⟨rfl, fun s x hpoly hx => ⟨fun hne hfits => ?_, fun hempty => ?_⟩⟩
  · exact answers_remainder (exec_gencrc_of_ready hx) ((length_le_padded_iff hpoly x).mpr hne)
      fun rem hrem => responseFits_out (hrem ▸ hfits)
  · exact answers_lengthError (exec_gencrc_of_ready hx)
      (Nat.not_le.mp fun hlen => (length_le_padded_iff hpoly x).mp hlen hempty)

/-- Settles O17: the operand is the frame, and the value of a remainder of `d` bits is a number of `d` bits. -/
theorem chkcrcReturnsRemainderValue : Obligations.ChkcrcReturnsRemainderValue := by
  refine ⟨rfl, fun s x hx => ⟨fun hlen => ?_, answers_lengthError (exec_chkcrc_of_ready hx)⟩⟩
  obtain ⟨rem, hdiv, hrem, hanswers⟩ := answers_remainder (exec_chkcrc_of_ready hx) hlen fun _ _ => rfl
  have hval : valOf rem < 2 ^ degree s.cfg.poly := hrem ▸ valOf_lt rem
  exact ⟨rem, hdiv, hval, hanswers⟩

end Sys2Proof.Proofs
end

section
/-! SUPPORT. The helpers of the checksum (42_checksum.md R102 to R108), a law or two for each of `PAD`, `FOLD`, `SUMW`
and `CHECKSUM`: what later proofs cite instead of the definitions. -/

namespace Sys2Proof.Proofs

open Sys2Proof.Machine

/-! ### `PAD` (R102) -/

theorem pad_of_dvd {s : Bits} {n : Nat} (h : n ∣ s.length) : pad s n = s := by
  simp [pad, zeros, Nat.mod_eq_zero_of_dvd h]

/-- The zeros complete the last word, whose bits are the remainder of the length by `W`. -/
theorem dvd_length_pad (s : Bits) {n : Nat} (hn : 1 ≤ n) : n ∣ (pad s n).length := by
  have hlt : s.length % n < n := Nat.mod_lt _ hn
  have hwhole : s.length + (n - s.length % n) = n * (s.length / n + 1) := by
    have hdiv := Nat.div_add_mod s.length n
    rw [Nat.mul_succ]
    omega
  rw [pad, List.length_append, length_zeros]
  apply Nat.dvd_of_mod_eq_zero
  rw [Nat.add_mod_mod, hwhole, Nat.mul_mod_right]

/-- Settles O31: the count of zeros is a remainder by `W`, and it completes the last word. -/
theorem padFillsLastWord : Obligations.PadFillsLastWord := fun s _ hn =>
  ⟨⟨_, Nat.mod_lt _ hn, rfl, rfl⟩, dvd_length_pad s hn, pad_of_dvd⟩

/-! ### `FOLD` (R104, R105 (a)) -/

/-- Each multiple of `2^W` is replaced by 1. -/
theorem foldPass_lt {v n : Nat} (hn : 1 ≤ n) (hv : 2 ^ n ≤ v) : foldPass v n < v := by
  have hhigh : 0 < v / 2 ^ n := Nat.div_pos hv (by positivity)
  have hgrow : v / 2 ^ n < 2 ^ n * (v / 2 ^ n) := lt_mul_left hhigh (Nat.one_lt_two_pow (by omega))
  have hsplit := Nat.div_add_mod v (2 ^ n)
  rw [foldPass]
  omega

theorem foldLoop_of_lt {v n : Nat} (k : Nat) (hv : v < 2 ^ n) : foldLoop n k v = v := by
  cases k with
  | zero => rfl
  | succ k => rw [foldLoop, if_pos hv]

theorem foldLoop_succ_of_le {v n : Nat} (k : Nat) (hv : 2 ^ n ≤ v) :
    foldLoop n (k + 1) v = foldLoop n k (foldPass v n) := by
  rw [foldLoop, if_neg (Nat.not_lt.mpr hv)]

/-- A bound of `v` passes is enough for the value to fit. -/
theorem foldLoop_lt {v n k : Nat} (hn : 1 ≤ n) (hk : v ≤ k) : foldLoop n k v < 2 ^ n := by
  induction k generalizing v with
  | zero =>
    rw [Nat.le_zero.mp hk]
    exact Nat.two_pow_pos n
  | succ k ih =>
    by_cases hv : v < 2 ^ n
    · rwa [foldLoop_of_lt _ hv]
    · have hle := Nat.not_lt.mp hv
      have hpass := foldPass_lt hn hle
      rw [foldLoop_succ_of_le _ hle]
      exact ih (by omega)

/-- A pass more than enough changes nothing. -/
theorem foldLoop_succ {v n k : Nat} (hn : 1 ≤ n) (hk : v ≤ k) : foldLoop n (k + 1) v = foldLoop n k v := by
  induction k generalizing v with
  | zero =>
    have hzero : v < 2 ^ n := Nat.le_zero.mp hk ▸ Nat.two_pow_pos n
    rw [foldLoop_of_lt _ hzero, foldLoop_of_lt _ hzero]
  | succ k ih =>
    by_cases hv : v < 2 ^ n
    · rw [foldLoop_of_lt _ hv, foldLoop_of_lt _ hv]
    · have hle := Nat.not_lt.mp hv
      have hpass := foldPass_lt hn hle
      rw [foldLoop_succ_of_le _ hle, foldLoop_succ_of_le _ hle, ih (by omega)]

theorem foldLoop_eq_fold {v n k : Nat} (hn : 1 ≤ n) (hk : v ≤ k) : foldLoop n k v = fold v n := by
  induction k, hk using Nat.le_induction with
  | base => rfl
  | succ k hk ih => rw [foldLoop_succ hn hk, ih]

theorem fold_of_lt {v n : Nat} (hv : v < 2 ^ n) : fold v n = v := foldLoop_of_lt v hv

theorem fold_of_le {v n : Nat} (hn : 1 ≤ n) (hv : 2 ^ n ≤ v) : fold v n = fold (foldPass v n) n := by
  obtain ⟨k, rfl⟩ : ∃ k, v = k + 1 := Nat.exists_eq_add_one.mpr ((Nat.two_pow_pos n).trans_le hv)
  have hpass := foldPass_lt hn hv
  rw [fold, foldLoop_succ_of_le _ hv, foldLoop_eq_fold hn (by omega)]

theorem fold_le (v : Nat) {n : Nat} (hn : 1 ≤ n) : fold v n ≤ 2 ^ n - 1 :=
  Nat.le_sub_one_of_lt (foldLoop_lt hn le_rfl)

/-- Settles O32: the passes that are left after the first are enough for what it gives. -/
theorem foldRepeatsUntilFits : Obligations.FoldRepeatsUntilFits := by
  refine fun v n hn => ⟨?_, fold_le v hn⟩
  split
  next hv => exact fold_of_le hn hv
  next hv => exact fold_of_lt (Nat.not_le.mp hv)

/-! ### `SUMW` (R103) -/

theorem sumw_eq_sum (s : Bits) (n : Nat) : sumw s n = ∑ j ∈ Finset.range (s.length / n), word s n j := rfl

theorem sumw_nil (n : Nat) : sumw [] n = 0 := by
  rw [sumw_eq_sum, List.length_nil, Nat.zero_div, Finset.sum_range_zero]

/-- A whole word of a sequence is the same in every longer one. -/
theorem word_append_left {s : Bits} (t : Bits) {n j : Nat} (hj : j < s.length / n) :
    word (s ++ t) n j = word s n j := by
  have hend : j * n + n ≤ s.length := by
    rw [← Nat.succ_mul]
    exact (Nat.mul_le_mul_right n hj).trans (Nat.div_mul_le_self _ _)
  have htake : n ≤ (s.drop (j * n)).length := by
    rw [List.length_drop]
    omega
  rw [word, word, memRead, memRead, List.drop_append_of_le_length (by omega), List.take_append_of_le_length htake]

theorem word_append_last {s t : Bits} {n : Nat} (hs : n ∣ s.length) (ht : t.length = n) :
    word (s ++ t) n (s.length / n) = valOf t := by
  rw [word, memRead, Nat.div_mul_cancel hs, List.drop_left, ← ht, List.take_length]

theorem sumw_append_word {s t : Bits} {n : Nat} (hn : 1 ≤ n) (hs : n ∣ s.length) (ht : t.length = n) :
    sumw (s ++ t) n = sumw s n + valOf t := by
  have hcount : (s ++ t).length / n = s.length / n + 1 := by
    rw [List.length_append, ht, Nat.add_div_right _ hn]
  have hkept : ∀ j ∈ Finset.range (s.length / n), word (s ++ t) n j = word s n j := fun j hj =>
    word_append_left t (Finset.mem_range.mp hj)
  rw [sumw_eq_sum, hcount, Finset.sum_range_succ, Finset.sum_congr rfl hkept, word_append_last hs ht, sumw_eq_sum]

/-- Settles O60: the words before an appended one are what they were. -/
theorem sumwAddsEachWordOnce : Obligations.SumwAddsEachWordOnce := fun s n hn hs =>
  ⟨sumw_eq_sum s n, sumw_nil n, fun _ ht => sumw_append_word hn hs ht⟩

/-! ### `CHECKSUM` (R107, R108) -/

theorem valOf_checksum (x : Bits) (n : Nat) : valOf (checksum x n) = 2 ^ n - 1 - foldedSum x n := by
  have hpos := Nat.two_pow_pos n
  have hlt : notW n (foldedSum x n) < 2 ^ n := by
    rw [notW]
    omega
  exact valOf_bitsOf hlt

/-- Settles O35: the folded sum is at most `M`, so nothing is lost in its complement. -/
theorem sumAndChecksumAreComplements : Obligations.SumAndChecksumAreComplements := by
  refine fun x n hn => ⟨rfl, rfl, ?_⟩
  rw [valOf_checksum]
  exact Nat.add_sub_cancel' (fold_le _ hn)

end Sys2Proof.Proofs
end

section
/-! SUPPORT. The four checksum operations (42_checksum.md R107, R110, R113, R116) do one thing with a sampled input: test
the width, in both forms, and respond with what the input and the width give, or raise `InvalidWidth`. -/

namespace Sys2Proof.Proofs

open Sys2Proof.Machine

/-! ### The words with a width field (R54, R57) -/

/-- The width field is added to the pattern of its row: the mask drops it and `WF` is what is left. -/
theorem decode_fieldWord {p n : Nat} {i : Instr} (hrow : ⟨0xFF00#16, BitVec.ofNat 16 p, i⟩ ∈ rows)
    (hp : p < 2 ^ 16 ∧ p % 256 = 0) (hn : n < 256) :
    decode (BitVec.ofNat 16 (p + n)) = .ok (withWidthField n i) := by
  have hnum : (BitVec.ofNat 16 (p + n)).toNat = p + n := by
    rw [BitVec.toNat_ofNat]
    omega
  have hfield : wfField (BitVec.ofNat 16 (p + n)) = n := by
    rw [wfField, BitVec.extractLsb'_toNat, hnum, Nat.shiftRight_zero]
    omega
  refine decode_eq_ok.mpr ⟨_, hrow, and_FF00_eq_iff.mpr ?_, by rw [hfield]⟩
  rw [hnum, BitVec.toNat_ofNat]
  omega

/-! ### The two forms of an operation (R54, R55) -/

/-- With `DEFW = n`, the default-width form does what the form of width `n` does. -/
theorem exec_of_form {op : Int → State → Result} {field : Nat → Instr} {dflt i : Instr} {s : State} {n : Nat}
    (hfield : exec (field n) s = op n s) (hdflt : exec dflt s = op s.cfg.defw s)
    (hi : i = field n ∨ (i = dflt ∧ s.cfg.defw = n)) : exec i s = op n s := by
  rcases hi with rfl | ⟨rfl, hdefw⟩
  · exact hfield
  · rw [hdflt, hdefw]

/-! ### A width that is not accepted -/

theorem answers_of_raise {i : Instr} {s : State} {code : StatusCode} (hexec : exec i s = raise code s) :
    Answers i s fun t => ErrorEntry s t code :=
  ⟨_, hexec, hasResponse_setResponse s code _, sameRest_setResponse s code _, sameHidden_setResponse s code _⟩

theorem checksum_of_not_accepted {s : State} {x : Bits} {w : Int} (hx : Ready s x)
    (hbad : ¬ Accepted s.params.widthPolicy w) (go : Bits → Nat → Result) :
    withInput s (fun x => withWidth w s (go x)) = raise stInvalidWidth s := by
  rw [withInput_of_ready hx, withWidth_of_not_accepted hbad]

/-- The width test stands before everything else an operation does (R100, 60_exceptions.md R135). -/
theorem answers_widthError {i : Instr} {s : State} {x : Bits} (hx : Ready s x)
    (hcause : WidthErrorCause s.params.widthPolicy s.cfg.defw i) :
    Answers i s fun t => ErrorEntry s t stInvalidWidth := by
  apply answers_of_raise
  match i, hcause with
  | .calcsum _, hbad | .calcsumD, hbad => exact (calcsum.eq_def _ s).trans (checksum_of_not_accepted hx hbad _)
  | .addsum _, hbad | .addsumD, hbad => exact (addsum.eq_def _ s).trans (checksum_of_not_accepted hx hbad _)
  | .versum _, hbad | .versumD, hbad => exact (versum.eq_def _ s).trans (checksum_of_not_accepted hx hbad _)
  | .versums _, hbad | .versumsD, hbad => exact (versums.eq_def _ s).trans (checksum_of_not_accepted hx hbad _)

/-- R100: no policy accepts a width that is not positive. -/
theorem not_accepted_of_nonpos (p : WidthPolicy) {w : Int} (hw : w ≤ 0) : ¬ Accepted p w := fun hacc =>
  absurd hacc.1 (Int.not_lt.mpr hw)

/-- Settles O29: a width that is not positive is an error cause in all eight forms. -/
theorem nonPositiveWidthRaisesInvalidWidth : Obligations.NonPositiveWidthRaisesInvalidWidth := by
  refine fun s x hx => ⟨fun i hi => answers_widthError hx ?_, fun hdefw i hi => answers_widthError hx ?_⟩
  · rcases hi with rfl | rfl | rfl | rfl <;> exact not_accepted_of_nonpos _ le_rfl
  · rcases hi with rfl | rfl | rfl | rfl <;> exact not_accepted_of_nonpos _ hdefw

/-! ### An accepted width -/

section
variable {s : State} {x : Bits} (hx : Ready s x) {n : Nat} (hacc : Accepted s.params.widthPolicy n)
include hx hacc

/-- The checksum operations share one shape: with an accepted width, a response that fits ends them. -/
theorem checksum_of_ready {r : Bits → Nat → Response} {sum : Bits → Nat → Nat}
    (hfits : responseFits s.params (r x n) = true) :
    withInput s (fun x => withWidth n s fun n => respond (r x n) (s.setSum (sum x n))) =
      .next ((s.setSum (sum x n)).setResponse stOk (r x n)) := by
  rw [withInput_of_ready hx, withWidth_of_accepted hacc, respond_next]
  exact ⟨hfits, rfl⟩

theorem calcsum_of_ready (hfits : fits s.params n = true) :
    calcsum n s = .next ((s.setSum (sumw (pad x n) n)).setResponse stOk { out := some (checksum x n) }) :=
  checksum_of_ready hx hacc (responseFits_out (by rwa [length_checksum]))

theorem addsum_of_ready (hfits : fits s.params (x.length + n) = true) :
    addsum n s = .next ((s.setSum (sumw (pad x n) n)).setResponse stOk { out := some (x ++ checksum x n) }) :=
  checksum_of_ready hx hacc (responseFits_out (by rwa [List.length_append, length_checksum]))

/-- A response without sequences fits every buffer, so `VERSUM` answers on every frame. -/
theorem versum_of_ready :
    versum n s =
      .next ((s.setSum (total x n)).setResponse stOk { flag := some (allOnesFlag (fold (total x n) n) n) }) :=
  checksum_of_ready hx hacc rfl

/-- The received checksum is part of the frame, so it fits where the frame fits. -/
theorem versums_of_ready (hfits : fits s.params n = true) :
    versums n s = .next ((s.setSum (sumw (pad (dataPart x n) n) n)).setResponse stOk (versumsResponse x n)) := by
  have hcalc : fits s.params (checksum (dataPart x n) n).length = true := by rwa [length_checksum]
  have hle : (recvPart x n).length ≤ x.length := by
    rw [recvPart, List.length_drop]
    exact Nat.sub_le _ _
  exact checksum_of_ready (r := versumsResponse) hx hacc (Bool.and_eq_true_iff.mpr ⟨hcalc, fits_of_le hle hx.2⟩)

end

/-- Such an operation leaves its response, the sum, and everything else as it was (R18, R23). -/
theorem answers_results {i : Instr} {s : State} {k : Nat} {r : Response}
    (hexec : exec i s = .next ((s.setSum k).setResponse stOk r)) :
    Answers i s fun t =>
      HasResponse t stOk r.out r.out2 r.val r.flag ∧ SameRest s t ∧ t.work = s.work :=
  ⟨_, hexec, hasResponse_setResponse _ _ _, sameRest_setResponse (s.setSum k) _ _, rfl⟩

/-! ### The four operations -/

/-- Settles O25: the response is the checksum, which has `W` bits. -/
theorem calcsumReturnsChecksum : Obligations.CalcsumReturnsChecksum := by
  refine ⟨fun n hn => decode_fieldWord (i := .calcsum 0) (by decide) (by decide) hn, rfl,
    fun s x n hx hacc hfits i hi => ?_, fun s x w hx hbad i hi => answers_widthError hx ?_⟩
  · exact answers_results ((exec_of_form rfl rfl hi).trans (calcsum_of_ready hx hacc hfits))
  · rcases hi with ⟨_, rfl, rfl⟩ | ⟨rfl, rfl⟩ <;> exact hbad

/-- Settles O26: the response is the payload as sampled, before the padding, and its checksum. -/
theorem addsumAppendsChecksum : Obligations.AddsumAppendsChecksum := by
  refine ⟨fun n hn => decode_fieldWord (i := .addsum 0) (by decide) (by decide) hn, rfl,
    fun s x n hx hacc hfits i hi => ?_, fun s x w hx hbad i hi => answers_widthError hx ?_⟩
  · exact answers_results ((exec_of_form rfl rfl hi).trans (addsum_of_ready hx hacc hfits))
  · rcases hi with ⟨_, rfl, rfl⟩ | ⟨rfl, rfl⟩ <;> exact hbad

theorem allOnesFlag_eq_decide (t n : Nat) : allOnesFlag t n = decide (t = 2 ^ n - 1) := beq_eq_decide _ _

/-- Settles O27: the response is the test of the folded `TOTAL` (R112). -/
theorem versumTestsAllOnes : Obligations.VersumTestsAllOnes := by
  refine ⟨fun n hn => decode_fieldWord (i := .versum 0) (by decide) (by decide) hn, rfl,
    fun s x n hx hacc i hi => ?_, fun s x w hx hbad i hi => answers_widthError hx ?_⟩
  · have hanswers := answers_results ((exec_of_form rfl rfl hi).trans (versum_of_ready hx hacc))
    rwa [allOnesFlag_eq_decide] at hanswers
  · rcases hi with ⟨_, rfl, rfl⟩ | ⟨rfl, rfl⟩ <;> exact hbad

theorem sameBitsFlag_eq_decide (recv recomputed : Bits) :
    sameBitsFlag recv recomputed = decide (recv = recomputed) := beq_eq_decide _ _

/-- Settles O28: the response is the two checksums and their comparison. -/
theorem versumsComparesChecksums : Obligations.VersumsComparesChecksums := by
  refine ⟨fun n hn => decode_fieldWord (i := .versums 0) (by decide) (by decide) hn, rfl,
    fun s x n hx hacc hfits i hi => ?_, fun s x w hx hbad i hi => answers_widthError hx ?_⟩
  · have hanswers := answers_results ((exec_of_form rfl rfl hi).trans (versums_of_ready hx hacc hfits))
    rwa [versumsResponse, sameBitsFlag_eq_decide] at hanswers
  · rcases hi with ⟨_, rfl, rfl⟩ | ⟨rfl, rfl⟩ <;> exact hbad

end Sys2Proof.Proofs
end

section
/-! SUPPORT. What the status says of an operation that has answered (60_exceptions.md R132, R133, R136): which error it
met, that an error has left no result, and that a detected transmission error is a result beside `ST = 0`. -/

namespace Sys2Proof.Proofs

open Sys2Proof.Machine

/-! ### The causes of an error, one lemma per family (R132) -/

/-- An operation that ends normally has met neither error. -/
theorem status_of_results (s : State) (r : Response) :
    ((s.setResponse stOk r).st = 1#2 ↔ False) ∧ ((s.setResponse stOk r).st = 2#2 ↔ False) := by
  simp [stOk]

/-- The divider raises `InvalidInputLength` alone, on an operand shorter than the polynomial (R82). -/
theorem status_of_withDivide {buf : Bits} {r : Bits → Response} {s t : State}
    (h : withDivide buf s (fun rem => respond (r rem)) = .next t) :
    (t.st = 1#2 ↔ buf.length < s.cfg.poly.length) ∧ (t.st = 2#2 ↔ False) := by
  rcases withDivide_next h with ⟨hshort, rfl⟩ | ⟨w, hdiv, hresp⟩
  · simp [hshort, stInvalidInputLength]
  · have hlong : ¬ buf.length < s.cfg.poly.length := fun hshort => by
      rw [divide_eq_none.mpr hshort] at hdiv
      cases hdiv
    rw [iff_false_intro hlong]
    obtain ⟨-, rfl⟩ := respond_next.mp hresp
    exact status_of_results _ _

/-- The checksum operations raise `InvalidWidth` alone, on a width that is not accepted (R100). -/
theorem status_of_checksum {w : Int} {r : Bits → Nat → Response} {sum : Bits → Nat → Nat} {s t : State}
    (h : withInput s (fun x => withWidth w s fun n => respond (r x n) (s.setSum (sum x n))) = .next t) :
    (t.st = 1#2 ↔ False) ∧ (t.st = 2#2 ↔ ¬ Accepted s.params.widthPolicy w) := by
  obtain ⟨x, -, hnext⟩ := withInput_next h
  rcases withWidth_next hnext with ⟨hbad, rfl⟩ | ⟨n, rfl, hacc, hresp⟩
  · simp [hbad, stInvalidWidth]
  · rw [iff_false_intro (not_not_intro hacc)]
    obtain ⟨-, rfl⟩ := respond_next.mp hresp
    exact status_of_results _ _

/-- Settles O43: each family raises one error at most, where its operand or its width fails the family's test. -/
theorem errorCauses : Obligations.ErrorCauses := by
  intro i s t x hpoly hx h
  match i, h with
  | .addpar, h =>
    obtain ⟨_, -, -, rfl⟩ := execAddpar_next h
    exact status_of_results s _
  | .chkpar, h =>
    obtain ⟨_, -, rfl⟩ := execChkpar_next h
    exact status_of_results s _
  | .divrem, h => exact status_of_withDivide ((exec_divrem_of_ready hx).symm.trans h)
  | .gencrc, h =>
    have hshort : (x ++ zeros (degree s.cfg.poly)).length < s.cfg.poly.length ↔ x = [] := by
      rw [← Nat.not_le, length_le_padded_iff hpoly, not_not]
    have hstatus := status_of_withDivide ((exec_gencrc_of_ready hx).symm.trans h)
    rwa [hshort] at hstatus
  | .chkcrc, h => exact status_of_withDivide ((exec_chkcrc_of_ready hx).symm.trans h)
  | .calcsum _, h | .calcsumD, h => exact status_of_checksum ((calcsum.eq_def _ s).symm.trans h)
  | .addsum _, h | .addsumD, h => exact status_of_checksum ((addsum.eq_def _ s).symm.trans h)
  | .versum _, h | .versumD, h => exact status_of_checksum ((versum.eq_def _ s).symm.trans h)
  | .versums _, h | .versumsD, h => exact status_of_checksum ((versums.eq_def _ s).symm.trans h)

/-! ### What an error leaves (R136) -/

theorem errorEntry_setResponse (s : State) (code : StatusCode) : ErrorEntry s (s.setResponse code {}) code :=
  ⟨hasResponse_setResponse s code {}, sameRest_setResponse s code {}, sameHidden_setResponse s code {}⟩

/-- Settles O46: of the two ways an operation can end, the one that is not an error writes `ST = 0`. -/
theorem errorEntryLeavesNoResult : Obligations.ErrorEntryLeavesNoResult := by
  intro i s t h hne
  cases exec_ends h with
  | @error code hcode =>
    rcases hcode with rfl | rfl
    · exact .inl (errorEntry_setResponse s _)
    · exact .inr (errorEntry_setResponse s _)
  | results => exact absurd rfl hne

/-! ### Detected transmission errors (R133) -/

theorem writesFlag_iff {i : Instr} : writesFlag i = true ↔
    i = .chkpar ∨ (∃ n, i = .versum n) ∨ i = .versumD ∨ (∃ n, i = .versums n) ∨ i = .versumsD := by
  cases i <;> simp [writesFlag]

theorem writesVal_iff {i : Instr} : writesVal i = true ↔ i = .chkcrc := by
  cases i <;> simp [writesVal]

/-- Settles O44: a value in `FLAG` or `VAL` is a result, so `ST = 0`, and only an operation whose row has that register
writes one. -/
theorem detectedErrorsAreResults : Obligations.DetectedErrorsAreResults := by
  intro i s t h
  cases exec_ends h with
  | error => exact ⟨nofun, nofun⟩
  | @results u r _ hwrites =>
    obtain ⟨-, -, hval, hflag⟩ := hwrites
    refine ⟨fun hf => ⟨rfl, writesFlag_iff.mp ?_⟩, fun v hv _ => ⟨rfl, writesVal_iff.mp ?_⟩⟩
    · exact hflag.symm.trans (Option.isSome_of_eq_some hf)
    · exact hval.symm.trans (Option.isSome_of_eq_some hv)

end Sys2Proof.Proofs
end

section
/-! SUPPORT. The text codec of the host (60_exceptions.md R149): decoding takes 8 bits at a time, and the 8 bits of a
character spell its number. -/

namespace Sys2Proof.Proofs

open Sys2Proof.Machine

theorem encodeText_singleton (c : Byte) : encodeText [c] = bitsOf 8 c.toNat := by
  rw [encodeText, List.flatMap_singleton]

theorem encodeText_append (a b : List Byte) : encodeText (a ++ b) = encodeText a ++ encodeText b :=
  List.flatMap_append

theorem encodeText_cons (c : Byte) (text : List Byte) : encodeText (c :: text) = bitsOf 8 c.toNat ++ encodeText text :=
  List.flatMap_cons

/-- A partial byte is dropped. -/
theorem decodeText_of_short {tail : Bits} (h : tail.length < 8) : decodeText tail = [] := by
  unfold decodeText
  split
  · simp only [List.length_cons] at h
    omega
  · rfl

/-- A whole byte in front gives a character, or nothing when its value is zero. -/
theorem decodeText_append {byte : Bits} (h : byte.length = 8) (rest : Bits) :
    decodeText (byte ++ rest) =
      if valOf byte = 0 then decodeText rest else BitVec.ofNat 8 (valOf byte) :: decodeText rest :=
  match byte, h with
  | [_, _, _, _, _, _, _, _], _ => rfl

theorem decodeText_append_char (c : Byte) (rest : Bits) :
    decodeText (bitsOf 8 c.toNat ++ rest) = if c = 0#8 then decodeText rest else c :: decodeText rest := by
  rw [decodeText_append (length_bitsOf 8 _), valOf_bitsOf c.isLt, BitVec.ofNat_toNat, BitVec.setWidth_eq]
  exact if_congr (BitVec.toNat_inj (y := 0#8)) rfl rfl

theorem decodeText_encodeText (text : List Byte) {tail : Bits} (h : tail.length < 8) :
    decodeText (encodeText text ++ tail) = text.filter fun c => decide (c ≠ 0#8) := by
  induction text with
  | nil => exact decodeText_of_short h
  | cons c text ih =>
    rw [encodeText_cons, List.append_assoc, decodeText_append_char, ih]
    by_cases hc : c = 0#8 <;> simp [hc]

/-- Settles O59: the bits of a character are those of its number, highest first, so decoding undoes them character by
character. -/
theorem textCodecSkipsZeroBytes : Obligations.TextCodecSkipsZeroBytes :=
  ⟨encodeText_singleton, encodeText_append, fun text _ h => decodeText_encodeText text h⟩

end Sys2Proof.Proofs
end

section
/-! SUPPORT. The encoder against the decoder (30_encoding.md B.3): the width field stands in bits that its pattern leaves
free, so the two undo each other. -/

namespace Sys2Proof.Proofs

open Sys2Proof.Machine

/-- A pattern with an empty low byte and a width field of eight bits share no bit, so joining them is adding them. -/
theorem withWidthBits_eq_add {p n : Nat} (hp : p % 256 = 0) (hn : n < 256) :
    withWidthBits (BitVec.ofNat 16 p) n = BitVec.ofNat 16 (p + n) := by
  have hhigh : 2 ^ 8 * (p / 256) = p := by omega
  have hjoin : p + n = p ||| n := hhigh ▸ Nat.two_pow_add_eq_or_of_lt hn (p / 256)
  have hfield : (BitVec.ofNat 8 n).setWidth 16 = BitVec.ofNat 16 n := by
    apply BitVec.eq_of_toNat_eq
    simp only [BitVec.toNat_setWidth, BitVec.toNat_ofNat]
    omega
  rw [withWidthBits, hfield, ← BitVec.ofNat_or, hjoin]

/-- The word of a row with a width field decodes to that row. -/
theorem decode_withWidthBits {p n : Nat} {i : Instr} (hrow : ⟨0xFF00#16, BitVec.ofNat 16 p, i⟩ ∈ rows)
    (hp : p < 2 ^ 16 ∧ p % 256 = 0) (hn : WidthFieldFits n = true) :
    decode (withWidthBits (BitVec.ofNat 16 p) n) = .ok (withWidthField n i) := by
  have hlt : n < 256 := of_decide_eq_true hn
  rw [withWidthBits_eq_add hp.2 hlt, decode_fieldWord hrow hp hlt]

/-- Settles O1: a word without a width field is one word, which the table decodes; the others carry any field of eight
bits through. -/
theorem decodeAfterEncode : Obligations.DecodeAfterEncode := by
  intro i hwf
  match i, hwf with
  | .addpar, _ | .chkpar, _ | .divrem, _ | .gencrc, _ | .chkcrc, _ => rfl
  | .calcsumD, _ | .addsumD, _ | .versumD, _ | .versumsD, _ => rfl
  | .calcsum _, hn => exact decode_withWidthBits (p := 0x5000) (i := .calcsum 0) (by decide) (by decide) hn
  | .addsum _, hn => exact decode_withWidthBits (p := 0x6000) (i := .addsum 0) (by decide) (by decide) hn
  | .versum _, hn => exact decode_withWidthBits (p := 0x7000) (i := .versum 0) (by decide) (by decide) hn
  | .versums _, hn => exact decode_withWidthBits (p := 0x8000) (i := .versums 0) (by decide) (by decide) hn

/-- A high byte and the width field beside it are the whole word. -/
theorem withWidthBits_and {w p : CommandWord} (hp : w &&& 0xFF00#16 = p) :
    withWidthBits p (w &&& 0x00FF#16).toNat = w := by
  have hfield : (BitVec.ofNat 8 (w &&& 0x00FF#16).toNat).setWidth 16 = w &&& 0x00FF#16 := by
    apply BitVec.eq_of_toNat_eq
    have hlt : wfField w < 2 ^ 8 := BitVec.isLt _
    rw [← wfField_eq, BitVec.toNat_setWidth, BitVec.toNat_ofNat]
    omega
  calc withWidthBits p (w &&& 0x00FF#16).toNat = w &&& 0xFF00#16 ||| w &&& 0x00FF#16 := by
        rw [withWidthBits, hfield, hp]
    _ = w &&& BitVec.allOnes 16 := (BitVec.and_or_distrib_left ..).symm
    _ = w := BitVec.and_allOnes

theorem widthFieldFits_and (w : CommandWord) : WidthFieldFits (w &&& 0x00FF#16).toNat = true := by
  rw [← wfField_eq]
  exact decide_eq_true (BitVec.isLt _)

theorem eq_of_and_FFFF {w p : CommandWord} (h : w &&& 0xFFFF#16 = p) : p = w :=
  (BitVec.toNat_inj.mp (and_FFFF_eq_iff.mp h)).symm

/-- Settles O2: the pattern a word matches and the width field read from it are all of its bits. -/
theorem encodeAfterDecode : Obligations.EncodeAfterDecode := by
  intro w i h
  match i, (commandWordSelectsItsRow w i).mp h with
  | .addpar, h | .chkpar, h | .divrem, h | .gencrc, h | .chkcrc, h => exact ⟨eq_of_and_FFFF h, rfl⟩
  | .calcsumD, h | .addsumD, h | .versumD, h | .versumsD, h => exact ⟨eq_of_and_FFFF h, rfl⟩
  | .calcsum _, ⟨hp, hn⟩ | .addsum _, ⟨hp, hn⟩ | .versum _, ⟨hp, hn⟩ | .versums _, ⟨hp, hn⟩ =>
    subst hn
    exact ⟨withWidthBits_and hp, widthFieldFits_and w⟩

/-- Settles O5: each word matches one row, or none and belongs to one group. -/
theorem sampleWordsDecode : Obligations.SampleWordsDecode :=
  ⟨rfl, rfl, rfl, rfl, rfl, rfl, rfl, rfl, rfl, rfl, rfl, rfl, rfl, rfl, rfl, rfl⟩

end Sys2Proof.Proofs
end

section
/-! SUPPORT. The frame of every operation (10_state.md R11, R16, R22, R23), and what one action of the host can do, said
once; what a step never writes follows from the two. -/

namespace Sys2Proof.Proofs

open Sys2Proof.Machine

/-- Settles O49: an operation writes its response over the state it started in, with the hidden register of its family
loaded. -/
theorem operationsKeepTheRest : Obligations.OperationsKeepTheRest := by
  intro i s t h
  have hrest {u : State} {code : StatusCode} {r : Response} : SameRest u (u.setResponse code r) :=
    sameRest_setResponse u code r
  cases exec_ends h with
  | error _ => exact ⟨hrest, fun _ => rfl, fun _ => rfl⟩
  | results hcomp =>
    cases hcomp with
    | nothing => exact ⟨hrest, fun _ => rfl, fun _ => rfl⟩
    | divided w huse => exact ⟨hrest (u := s.setWork w), fun hno => Bool.noConfusion (huse.symm.trans hno), fun _ => rfl⟩
    | summed n huse => exact ⟨hrest (u := s.setSum n), fun _ => rfl, fun hno => Bool.noConfusion (huse.symm.trans hno)⟩

/-- What one action of the host can do to the state (60_exceptions.md R147). -/
inductive HostDoes (s : State) : HostAction → State → Prop
  | creates {poly : Bits} (defw : Int) (hpoly : legalPoly poly = true) :
      HostDoes s (.create poly defw) (State.fresh ⟨poly, defw⟩ s.params s.pending)
  | writesCmd (w : CommandWord) : HostDoes s (.writeCmd w) (s.setCmd w)
  | writesIn {b : Bits} (hfits : fits s.params b.length = true) : HostDoes s (.writeIn b) (s.setInBuf b)
  | writesInLen (n : Nat) : HostDoes s (.writeInLen n) (s.setInLen n)
  | issues {i : Instr} {t : State} (hexec : exec i s = .next t) : HostDoes s .issue t
  | nothing (a : HostAction) : HostDoes s a s
  | loads (a : HostAction) {b : Bits} (hfits : fits s.params b.length = true) :
      HostDoes s a ((s.setInBuf b).setInLen b.length)

theorem createInstance_next {poly : Bits} {defw : Int} {s t : State} :
    createInstance poly defw s = .next t ↔ legalPoly poly = true ∧ t = State.fresh ⟨poly, defw⟩ s.params s.pending := by
  rw [createInstance]
  split <;> simp [*, eq_comm]

theorem writeInput_next {b : Bits} {s t : State} :
    writeInput b s = .next t ↔ fits s.params b.length = true ∧ t = s.setInBuf b := by
  rw [writeInput]
  split <;> simp [*, eq_comm]

theorem issueCommand_next {s t : State} (h : issueCommand s = .next t) : ∃ i, exec i s = .next t := by
  rw [issueCommand] at h
  split at h
  next i _ => exact ⟨i, h⟩
  next => cases h

theorem takeOutput_next {s t : State} (h : takeOutput s = .next t) : ∃ o, loadInput o s = .next t := by
  obtain ⟨o, -, hload⟩ := withOut_next.mp h
  exact ⟨o, hload⟩

theorem formFrameFrom_next {s t : State} (h : formFrameFrom s = .next t) : t = s ∨ ∃ b, loadInput b s = .next t := by
  rw [formFrameFrom] at h
  split at h
  · obtain ⟨x, -, hout⟩ := withInput_next h
    obtain ⟨o, -, hload⟩ := withOut_next.mp hout
    exact .inr ⟨x ++ o, hload⟩
  · exact .inl (Host.Outcome.next.inj h).symm

theorem flipInput_next {i : Nat} {s t : State} (h : flipInput i s = .next t) : ∃ b, loadInput b s = .next t := by
  obtain ⟨x, -, hx⟩ := withInput_next h
  split at hx
  · exact ⟨flipAt x i, hx⟩
  · cases hx

theorem perform_next {a : HostAction} {s t : State} (h : perform a s = .next t) : HostDoes s a t := by
  match a, h with
  | .create _ _, h =>
    obtain ⟨hpoly, rfl⟩ := createInstance_next.mp h
    exact .creates _ hpoly
  | .writeCmd w, h => exact Host.Outcome.next.inj h ▸ .writesCmd w
  | .writeIn _, h =>
    obtain ⟨hfits, rfl⟩ := writeInput_next.mp h
    exact .writesIn hfits
  | .writeInLen n, h => exact Host.Outcome.next.inj h ▸ .writesInLen n
  | .issue, h =>
    obtain ⟨_, hexec⟩ := issueCommand_next h
    exact .issues hexec
  | .read _, h => exact readRegister_next h ▸ .nothing _
  | .takeOut, h =>
    obtain ⟨_, hload⟩ := takeOutput_next h
    obtain ⟨hfits, rfl⟩ := loadInput_next.mp hload
    exact .loads _ hfits
  | .formFrame, h =>
    obtain rfl | ⟨_, hload⟩ := formFrameFrom_next h
    · exact .nothing _
    · obtain ⟨hfits, rfl⟩ := loadInput_next.mp hload
      exact .loads _ hfits
  | .flip _, h =>
    obtain ⟨_, hload⟩ := flipInput_next h
    obtain ⟨hfits, rfl⟩ := loadInput_next.mp hload
    exact .loads _ hfits
  | .writeText _, h =>
    obtain ⟨hfits, rfl⟩ := loadInput_next.mp h
    exact .loads _ hfits

theorem step_of_pending {s : State} {a : HostAction} {rest : List HostAction} (h : s.pending = a :: rest) :
    step s = perform a (s.setPending rest) := by
  rw [step, advance, h]

theorem step_of_idle {s : State} (h : s.pending = []) : step s = .next s := by
  rw [step, advance, h]

/-- A step with nothing to do leaves the state; any other performs the first action that waits. -/
theorem step_next {s t : State} (h : step s = .next t) :
    t = s ∨ ∃ a rest, s.pending = a :: rest ∧ HostDoes (s.setPending rest) a t := by
  match hpend : s.pending with
  | [] => exact .inl (Host.Outcome.next.inj ((step_of_idle hpend).symm.trans h)).symm
  | a :: rest => exact .inr ⟨a, rest, rfl, perform_next ((step_of_pending hpend).symm.trans h)⟩

/-- Settles O50: of what the host can do, only a new creation touches `CFG`, and nothing touches the
parameters. -/
theorem configurationIsFixed : Obligations.ConfigurationIsFixed := by
  intro s t h
  obtain rfl | ⟨a, rest, hpend, hdoes⟩ := step_next h
  · exact ⟨rfl, .inl rfl⟩
  · cases hdoes with
    | creates defw _ => exact ⟨rfl, .inr ⟨_, defw, rest, hpend, rfl⟩⟩
    | issues hexec =>
      obtain ⟨⟨hcfg, hparams, -⟩, -, -⟩ := operationsKeepTheRest _ _ _ hexec
      exact ⟨hparams, .inl hcfg⟩
    | writesCmd | writesIn | writesInLen | nothing | loads => exact ⟨rfl, .inl rfl⟩

end Sys2Proof.Proofs
end

section
/-! SUPPORT. The invariant of the machine (`Legal`): what the host writes touches the input alone, and what an operation
writes it writes within its bounds. -/

namespace Sys2Proof.Proofs

open Sys2Proof.Machine

/-- The capacity of `WORK` (10_state.md R22, 20_memory.md R30). -/
theorem workFits_iff {p : Params} {d : Nat} {work : Bits} :
    workFits p d work = true ↔ ∀ m, p.maxBits = some m → work.length ≤ m + d := by
  rw [workFits]
  split <;> simp [*]

theorem le_of_fits {p : Params} {n m : Nat} (h : fits p n = true) (hm : p.maxBits = some m) : n ≤ m := by
  simpa [fits, hm] using h

theorem workFits_of_wf {s : State} (h : Memory.wf s = true) : workFits s.params (degree s.cfg.poly) s.work = true :=
  (Bool.and_eq_true_iff.mp h).2

/-- `WORK` has the length of the operand, which exceeds the input by `d` bits at most (R85, R86). -/
theorem workFits_of_divide {s : State} {x buf w : Bits} (hx : Ready s x) (hbuf : buf.length ≤ x.length + degree s.cfg.poly)
    (hdiv : divide s.cfg.poly buf = some w) : workFits s.params (degree s.cfg.poly) w = true := by
  refine workFits_iff.mpr fun m hm => ?_
  have hxm := le_of_fits hx.2 hm
  rw [length_divide hdiv]
  omega

theorem workFits_of_exec {i : Instr} {s t : State}
    (hwork : workFits s.params (degree s.cfg.poly) s.work = true) (h : exec i s = .next t) :
    workFits s.params (degree s.cfg.poly) t.work = true := by
  match i, h with
  | .divrem, h =>
    obtain ⟨x, hx, ⟨-, rfl⟩ | ⟨w, hdiv, -, rfl⟩⟩ := execDivrem_next h
    · exact hwork
    · exact workFits_of_divide hx (Nat.le_add_right _ _) hdiv
  | .gencrc, h =>
    obtain ⟨x, hx, ⟨-, rfl⟩ | ⟨w, hdiv, -, rfl⟩⟩ := execGencrc_next h
    · exact hwork
    · exact workFits_of_divide hx (by rw [List.length_append, length_zeros]) hdiv
  | .chkcrc, h =>
    obtain ⟨x, hx, ⟨-, rfl⟩ | ⟨w, hdiv, rfl⟩⟩ := execChkcrc_next h
    · exact hwork
    · exact workFits_of_divide hx (Nat.le_add_right _ _) hdiv
  | .addpar, h | .chkpar, h | .calcsum _, h | .calcsumD, h | .addsum _, h | .addsumD, h
  | .versum _, h | .versumD, h | .versums _, h | .versumsD, h =>
    obtain ⟨-, hsame, -⟩ := operationsKeepTheRest _ _ _ h
    rwa [hsame rfl]

theorem wf_of_exec {i : Instr} {s t : State} (hwf : Memory.wf s = true) (h : exec i s = .next t) :
    Memory.wf t = true := by
  have hwork := workFits_of_exec (workFits_of_wf hwf) h
  cases exec_ends h with
  | error _ => exact wf_setResponse hwf rfl
  | results hcomp _ hfits _ =>
    cases hcomp with
    | nothing => exact wf_setResponse hwf hfits
    | divided w _ => exact wf_setResponse (wf_setWork hwf (workFits_iff.mp hwork)) hfits
    | summed n _ => exact wf_setResponse (s := s.setSum n) hwf hfits

theorem legal_fresh {poly : Bits} (hpoly : legalPoly poly = true) (defw : Int) (p : Params) (l : List HostAction) :
    Legal (State.fresh ⟨poly, defw⟩ p l) :=
  ⟨hpoly, wf_fresh _ p l, by simp, .inl rfl, by simp⟩

theorem legal_setInBuf {s : State} {b : Bits} (h : Legal s) (hfits : fits s.params b.length = true) :
    Legal (s.setInBuf b) := by
  obtain ⟨hpoly, hwf, hrest⟩ := h
  exact ⟨hpoly, wf_setInBuf hwf hfits, hrest⟩

theorem legal_of_exec {i : Instr} {s t : State} (hs : Legal s) (h : exec i s = .next t) : Legal t := by
  obtain ⟨hpoly, hwf, -⟩ := hs
  have hin := sameInput_of_exec h
  obtain ⟨hok, herror, hst⟩ := resultRegistersOfEachOperation i s t h
  have hres : t.st = stOk ∨ NoResult t := Classical.or_iff_not_imp_left.mpr herror
  refine ⟨hin.cfg ▸ hpoly, wf_of_exec hwf h, hst, hres, ?_⟩
  rw [hin.cfg, Option.all_eq_true]
  intro v hv
  rcases hres with hzero | ⟨-, -, -, -, hnone, -⟩
  · obtain ⟨-, -, -, -, -, -, -, -, hval⟩ := hok hzero
    exact decide_eq_true (hval v hv)
  · rw [hnone] at hv
    cases hv

theorem legal_of_hostDoes {s t : State} {a : HostAction} (hs : Legal s) (h : HostDoes s a t) : Legal t := by
  cases h with
  | creates defw hpoly => exact legal_fresh hpoly defw _ _
  | writesCmd | writesInLen | nothing => exact hs
  | writesIn hfits => exact legal_setInBuf hs hfits
  | loads _ hfits => exact legal_setInBuf hs hfits
  | issues hexec => exact legal_of_exec hs hexec

/-- Settles O52: taking an action off the host's list changes no register, and whatever the action does keeps the
invariant. -/
theorem stepKeepsStateLegal : Obligations.StepKeepsStateLegal := by
  intro s t hs h
  obtain rfl | ⟨a, rest, -, hdoes⟩ := step_next h
  · exact hs
  · exact legal_of_hostDoes (s := s.setPending rest) hs hdoes

/-- Settles O53: reset holds what a creation gives, and its polynomial is legal. -/
theorem resetStateIsLegal : Obligations.ResetStateIsLegal := legal_fresh (by decide) _ _ _

end Sys2Proof.Proofs
end

section
/-! SUPPORT. Steps of the host and the block (60_exceptions.md R147, 70_reset_and_hazards.md R160, R163): a command written
and issued, creation, reads, and where a step can fault (10_state.md R25). -/

namespace Sys2Proof.Proofs

open Sys2Proof.Machine

/-! ### Issuing a command -/

theorem issueCommand_of_decode {s : State} {i : Instr} (h : decode s.cmd = .ok i) : issueCommand s = exec i s := by
  rw [issueCommand, h]

/-- Settles O6: the first action that waits is the issue, and `CMD` decodes to the operation. -/
theorem stepRunsIssuedCommand : Obligations.StepRunsIssuedCommand := by
  rintro s _ i rest rfl hdecode hpend
  exact (step_of_pending hpend).trans (issueCommand_of_decode hdecode)

/-- A run goes on with the rest of its steps behind a first one that answers. -/
theorem run_succ_of_step {M : Host.Core} {s t : M.State} (k : Nat) (h : M.step s = .next t) :
    M.run (k + 1) s = M.run k t := by
  rw [Host.Core.run, h]

theorem run_one (M : Host.Core) (s : M.State) : M.run 1 s = M.step s := by
  rw [Host.Core.run]
  cases M.step s <;> rfl

/-- The state that waits for the issue, when the host has written a command word and its whole input (R163). -/
def withCommand (s : State) (w : CommandWord) (x : Bits) (rest : List HostAction) : State :=
  (((s.setInBuf x).setInLen x.length).setCmd w).setPending (.issue :: rest)

/-- The three writes of a command are three steps that answer. -/
theorem run_commandActions {s : State} {a : Asm} {x : Bits} {rest : List HostAction}
    (hpend : s.pending = commandActions a x ++ rest) (hfits : fits s.params x.length = true) :
    Host.Core.run core 4 s = Host.Core.run core 1 (withCommand s (encode (assemble a)) x rest) := by
  have hwrite : step s = .next _ := (step_of_pending hpend).trans (writeInput_next.mpr ⟨hfits, rfl⟩)
  exact ((run_succ_of_step (M := core) 3 hwrite).trans (run_succ_of_step (M := core) 2 rfl)).trans
    (run_succ_of_step (M := core) 1 rfl)

/-- Settles O7: behind the three writes, the fourth step runs what the written word decodes to. -/
theorem commandSequenceIssuesCommand : Obligations.CommandSequenceIssuesCommand := by
  intro s a x rest hpend hfits hwf
  refine ⟨_, rfl, ready_setPending.mpr (ready_loadInput hfits), ?_⟩
  have hissue : step (withCommand s (encode (assemble a)) x rest) = exec (assemble a) _ :=
    stepRunsIssuedCommand _ _ _ rest rfl (decodeAfterEncode _ hwf) rfl
  exact ((run_commandActions hpend hfits).trans (run_one core _)).trans hissue

/-! ### Reset and creation -/

theorem registersAtReset_fresh (c : Cfg) (p : Params) (l : List HostAction) : RegistersAtReset (State.fresh c p l) :=
  ⟨rfl, rfl, rfl, ⟨rfl, rfl, rfl, rfl, rfl, rfl, rfl⟩, rfl, rfl⟩

/-- Settles O54: reset holds what a creation with the parameters gives. -/
theorem resetHoldsParametersAndZeros : Obligations.ResetHoldsParametersAndZeros :=
  ⟨rfl, rfl, registersAtReset_fresh _ _ _⟩

theorem legalPoly_iff {poly : Bits} : legalPoly poly = true ↔ poly[0]? = some true ∧ 2 ≤ poly.length := by
  rw [legalPoly, Bool.and_eq_true, beq_iff_eq, decide_eq_true_iff, List.head?_eq_getElem?]

theorem createInstance_of_illegal {poly : Bits} (h : ¬ legalPoly poly = true) (defw : Int) (s : State) :
    createInstance poly defw s = .refused .illegalConfiguration := if_neg h

/-- Settles O55: creation tests the polynomial, and what it gives holds the reset values. -/
theorem creationGivesFreshInstance : Obligations.CreationGivesFreshInstance := by
  intro s poly defw rest hpend
  have hstep : step s = createInstance poly defw (s.setPending rest) := step_of_pending hpend
  refine ⟨fun hfirst hlen => ?_, fun hbad => ?_⟩
  · exact ⟨_, hstep.trans (createInstance_next.mpr ⟨legalPoly_iff.mpr ⟨hfirst, hlen⟩, rfl⟩), rfl, rfl,
      registersAtReset_fresh _ _ _, rfl⟩
  · refine hstep.trans (createInstance_of_illegal (fun hpoly => ?_) defw _)
    obtain ⟨hfirst, hlen⟩ := legalPoly_iff.mp hpoly
    exact hbad.elim (· hfirst) (Nat.not_lt.mpr hlen)

/-! ### Reading a register (R25, R39) -/

theorem readRegister_of_none {s : State} {r : Reg} (h : s.valueIn r = none) :
    readRegister r s = .fault (.invalidated r) := by
  rw [readRegister, h]

theorem readRegister_of_some {s : State} {r : Reg} (h : s.valueIn r ≠ none) : readRegister r s = .next s := by
  obtain ⟨v, hv⟩ := Option.ne_none_iff_exists'.mp h
  rw [readRegister, hv]

theorem valueIn_fresh (r : Reg) (c : Cfg) (p : Params) (l : List HostAction) : (State.fresh c p l).valueIn r ≠ none := by
  cases r <;> exact Option.some_ne_none _

/-- Settles O56: a read asks only whether the register holds a value, and every register does after a creation. -/
theorem readingInvalidatedRegisterFaults : Obligations.ReadingInvalidatedRegisterFaults :=
  ⟨fun _ _ => ⟨readRegister_of_none, readRegister_of_some⟩,
    fun r c p l => readRegister_of_some (valueIn_fresh r c p l)⟩

/-! ### Where a step can fault -/

theorem withDivide_fault {buf : Bits} {s : State} {r : Bits → Response} {f : Fault} :
    withDivide buf s (fun rem => respond (r rem)) ≠ .fault f := by
  rw [withDivide]
  split
  · exact raise_fault
  · exact respond_fault

theorem withWidth_fault {w : Int} {s : State} {r : Nat → Response} {sum : Nat → Nat} {f : Fault} :
    withWidth w s (fun n => respond (r n) (s.setSum (sum n))) ≠ .fault f := by
  rw [withWidth]
  split
  · exact raise_fault
  · exact respond_fault

theorem Family.not_fault {go : State → Bits → Result} (hgo : Family go) (s : State) (x : Bits) (f : Fault) :
    go s x ≠ .fault f := by
  cases hgo with
  | parity => exact respond_fault
  | divider => exact withDivide_fault
  | checksum => exact withWidth_fault

theorem exec_not_fault (i : Instr) (s : State) (f : Fault) : exec i s ≠ .fault f := by
  obtain ⟨go, hgo, hexec⟩ := exec_family i
  intro h
  obtain ⟨x, -, hfault⟩ := withInput_fault ((hexec s).symm.trans h)
  exact hgo.not_fault s x f hfault

theorem issueCommand_not_fault (s : State) (f : Fault) : issueCommand s ≠ .fault f := by
  rw [issueCommand]
  split
  · exact exec_not_fault _ s f
  · nofun

theorem readRegister_fault {r : Reg} {s : State} {f : Fault} (h : readRegister r s = .fault f) :
    s.valueIn r = none ∧ f = .invalidated r := by
  rw [readRegister] at h
  split at h
  · cases h
  next hnone => exact ⟨hnone, (Host.Outcome.fault.inj h).symm⟩

/-- What the host does with a read of `OUT` is a write of its input, so only the read can fault. -/
theorem withOut_loadInput_fault {s : State} {b : Bits → Bits} {f : Fault}
    (h : withOut s (fun o => loadInput (b o) s) = .fault f) : s.out = none ∧ f = .invalidated .out := by
  obtain hnone | ⟨o, -, hload⟩ := withOut_fault.mp h
  · exact hnone
  · exact absurd hload loadInput_fault

theorem formFrameFrom_fault {s : State} {f : Fault} (h : formFrameFrom s = .fault f) :
    s.out = none ∧ f = .invalidated .out := by
  rw [formFrameFrom] at h
  split at h
  · obtain ⟨x, -, hout⟩ := withInput_fault h
    exact withOut_loadInput_fault hout
  · cases h

theorem flipInput_fault {i : Nat} {s : State} {f : Fault} : flipInput i s ≠ .fault f := by
  intro h
  obtain ⟨x, -, hx⟩ := withInput_fault h
  split at hx
  · exact loadInput_fault hx
  · cases hx

theorem valueIn_out_eq_none {s : State} : s.valueIn .out = none ↔ s.out = none := Option.map_eq_none_iff

/-- The three actions that read a result register are the ones that can fault (R25). -/
theorem perform_fault {a : HostAction} {s : State} {r : Reg} (h : perform a s = .fault (.invalidated r)) :
    s.valueIn r = none ∧ (a = .read r ∨ (r = .out ∧ (a = .takeOut ∨ a = .formFrame))) := by
  match a, h with
  | .read _, h =>
    obtain ⟨hnone, hreg⟩ := readRegister_fault h
    cases hreg
    exact ⟨hnone, .inl rfl⟩
  | .takeOut, h =>
    obtain ⟨hnone, hreg⟩ := withOut_loadInput_fault h
    cases hreg
    exact ⟨valueIn_out_eq_none.mpr hnone, .inr ⟨rfl, .inl rfl⟩⟩
  | .formFrame, h =>
    obtain ⟨hnone, hreg⟩ := formFrameFrom_fault h
    cases hreg
    exact ⟨valueIn_out_eq_none.mpr hnone, .inr ⟨rfl, .inr rfl⟩⟩
  | .create poly defw, h =>
    rw [perform, createInstance] at h
    split at h <;> cases h
  | .writeIn b, h =>
    rw [perform, writeInput] at h
    split at h <;> cases h
  | .issue, h => exact absurd h (issueCommand_not_fault s _)
  | .flip _, h => exact absurd h flipInput_fault
  | .writeText _, h => exact absurd h loadInput_fault

/-- Only a result register can hold no value (R18). -/
theorem mem_resultRegs_of_valueIn_eq_none {s : State} {r : Reg} (h : s.valueIn r = none) :
    r ∈ [Reg.out, .outLen, .out2, .out2Len, .val, .flag] := by
  cases r with
  | cmd | inBuf | inLen | st => cases h
  | out | outLen | out2 | out2Len | val | flag => decide

/-- Settles O57: an idle step and a command never fault; of the host's actions, the reads of a result register do. -/
theorem faultsMeanInvalidatedResult : Obligations.FaultsMeanInvalidatedResult := by
  refine ⟨fun s r h => ?_, exec_not_fault, issueCommand_not_fault⟩
  match hpend : s.pending with
  | [] => cases (step_of_idle hpend).symm.trans h
  | a :: rest =>
    obtain ⟨hnone, haction⟩ := perform_fault ((step_of_pending hpend).symm.trans h)
    exact ⟨mem_resultRegs_of_valueIn_eq_none hnone, hnone, a, rest, rfl, haction⟩

end Sys2Proof.Proofs
end

section
/-! SUPPORT. Buffers and words (20_memory.md R31, R32, R34): a write is read back and changes nothing else, and a sequence
cut in two is read as its left part shifted over its right part. -/

namespace Sys2Proof.Proofs

open Sys2Proof.Machine

/-- The bits in front of a window are the buffer's own. -/
theorem length_take_of_window {buf v : Bits} {a : Nat} (h : a + v.length ≤ buf.length) : (buf.take a).length = a :=
  List.length_take_of_le (by omega)

theorem memRead_memWrite {buf v : Bits} {a : Nat} (h : a + v.length ≤ buf.length) :
    memRead (memWrite buf a v) a v.length = v := by
  rw [memRead, memWrite, List.drop_left' (length_take_of_window h), List.take_left]

theorem getElem?_memWrite_outside {buf v : Bits} {a j : Nat} (h : a + v.length ≤ buf.length)
    (hj : j < a ∨ a + v.length ≤ j) : (memWrite buf a v)[j]? = buf[j]? := by
  have hfront := length_take_of_window h
  rcases hj with hj | hj
  · rw [memWrite, List.getElem?_append_left (by omega), List.getElem?_take_of_lt hj]
  · rw [memWrite, List.getElem?_append_right (by omega), List.getElem?_append_right (by omega), List.getElem?_drop]
    congr 1
    omega

/-- Settles O42: a written buffer is the bits in front of the window, what was written, and the bits behind. -/
theorem writeChangesOnlyItsWindow : Obligations.WriteChangesOnlyItsWindow := fun buf v a h =>
  ⟨memRead_memWrite h, length_memWrite buf v a h, fun _ hj => getElem?_memWrite_outside h hj⟩

theorem valOf_append_bits (s t : Bits) : valOf (s ++ t) = valOf s * 2 ^ t.length + valOf t := by
  induction t using List.reverseRecOn with
  | nil => simp [valOf]
  | append_singleton t b ih =>
    rw [← List.append_assoc, valOf_append, ih, valOf_append, List.length_append, List.length_singleton, pow_succ]
    ring

theorem memRead_add (buf : Bits) (a m n : Nat) : memRead buf a (m + n) = memRead buf a m ++ memRead buf (a + m) n := by
  rw [memRead, memRead, memRead, List.take_add, List.drop_drop]

theorem length_memRead {buf : Bits} {a n : Nat} (h : a + n ≤ buf.length) : (memRead buf a n).length = n := by
  rw [memRead, List.length_take, List.length_drop]
  omega

/-- Settles O41: the wide word is read where the two narrow words are, one behind the other. -/
theorem wideWordIsTwoNarrowWords : Obligations.WideWordIsTwoNarrowWords := by
  intro s n j h
  have hhigh : j * (2 * n) = 2 * j * n := by ring
  have hlow : 2 * j * n + n = (2 * j + 1) * n := by ring
  have hinside : (2 * j + 1) * n + n ≤ s.length := by linarith
  rw [word, word, word, hhigh, two_mul n, memRead_add, hlow, valOf_append_bits, length_memRead hinside, Nat.mul_comm]

end Sys2Proof.Proofs
end

section
/-! SUPPORT. Even parity (40_parity.md R72, R74, R75): the parity bit makes the count of 1-bits even, and every flipped bit
changes whether it is. -/

namespace Sys2Proof.Proofs

open Sys2Proof.Machine

theorem toNat_parityBit (x : Bits) : (parityBit x).toNat = x.count true % 2 := by
  rw [parityBit_eq_decide]
  rcases Nat.mod_two_eq_zero_or_one (x.count true) with h | h <;> rw [h] <;> rfl

theorem count_singleton (b : Bit) : [b].count true = b.toNat := by cases b <;> rfl

/-- R72: the appended bit is 1 exactly when the count is odd. -/
theorem count_append_parityBit (x : Bits) : (x ++ [parityBit x]).count true % 2 = 0 := by
  rw [List.count_append, count_singleton, toNat_parityBit]
  omega

/-- Settles O10: the result is the input with its parity bit. -/
theorem addparResultHasEvenOnes : Obligations.AddparResultHasEvenOnes := by
  intro s x hx hfits
  refine ⟨_, execAddpar_of_ready hx hfits, _, rfl, count_append_parityBit x, ?_⟩
  rw [State.setResponse_outLen, Option.map_some, List.length_append, List.length_singleton]

/-- Taking `OUT` as the input leaves a state that is ready with it. -/
theorem takeOutput_of_out {s : State} {o : Bits} (hout : s.out = some o) (hfits : fits s.params o.length = true) :
    takeOutput s = .next ((s.setInBuf o).setInLen o.length) :=
  withOut_next.mpr ⟨o, hout, loadInput_next.mpr ⟨hfits, rfl⟩⟩

/-- Settles O13: the result of `ADDPAR` fits, so it can be the input, and its count is even. -/
theorem parityRoundTrip : Obligations.ParityRoundTrip := by
  intro s x hx hfits
  have hframe : fits s.params (x ++ [parityBit x]).length = true := by
    rwa [List.length_append, List.length_singleton]
  refine ⟨_, _, _, execAddpar_of_ready hx hfits, takeOutput_of_out rfl hframe,
    execChkpar_of_ready (ready_loadInput hframe), ?_⟩
  rw [State.setResponse_flag, evenFlag_eq_decide, count_append_parityBit]
  rfl

theorem xorBits_cons (a b : Bit) (f g : Bits) : xorBits (a :: f) (b :: g) = (a ^^ b) :: xorBits f g := rfl

/-- A position that differs counts in one of two sequences, one that does not in both or in none. -/
theorem count_xorBits_mod_two {f g : Bits} (h : f.length = g.length) :
    (xorBits f g).count true % 2 = (f.count true + g.count true) % 2 := by
  induction f generalizing g with
  | nil =>
    rw [List.length_eq_zero_iff.mp h.symm]
    rfl
  | cons a f ih =>
    match g, h with
    | b :: g, h =>
      have hrest := ih (Nat.succ.inj h)
      rw [xorBits_cons]
      cases a <;> cases b <;> simp <;> omega

/-- Settles O14: beside a frame with an even count, the flipped positions have the parity of the received count. -/
theorem chkparDetectsOddFlips : Obligations.ChkparDetectsOddFlips := by
  intro s f g heven hlen hg
  refine ⟨_, execChkpar_of_ready hg, rfl, ?_⟩
  have hcount : (xorBits f g).count true % 2 = g.count true % 2 := by
    rw [count_xorBits_mod_two hlen.symm]
    omega
  rw [State.setResponse_flag, evenFlag_eq_decide, hcount]

end Sys2Proof.Proofs
end

section
/-! SUPPORT. Bit sequences as polynomials over GF(2) (30_encoding.md R51): what joining, exclusive or and zeros are there,
and that a sequence of known length is determined by its polynomial. -/

namespace Sys2Proof.Proofs

open Sys2Proof.Machine Polynomial

/-- A bit as a coefficient. -/
def bitCoeff (b : Bit) : ZMod 2 := if b then 1 else 0

theorem bitCoeff_xor (a b : Bit) : bitCoeff (a ^^ b) = bitCoeff a + bitCoeff b := by
  cases a <;> cases b <;> decide

theorem bitCoeff_injective {a b : Bit} (h : bitCoeff a = bitCoeff b) : a = b := by
  revert a b
  decide

theorem gf2_append_singleton (s : Bits) (b : Bit) : gf2 (s ++ [b]) = gf2 s * X + C (bitCoeff b) := by
  rw [gf2, List.foldl_append]
  rfl

theorem gf2_append (s t : Bits) : gf2 (s ++ t) = gf2 s * X ^ t.length + gf2 t := by
  induction t using List.reverseRecOn with
  | nil => simp [gf2]
  | append_singleton t b ih =>
    rw [← List.append_assoc, gf2_append_singleton, ih, gf2_append_singleton, List.length_append,
      List.length_singleton, pow_succ]
    ring

theorem gf2_cons (b : Bit) (s : Bits) : gf2 (b :: s) = C (bitCoeff b) * X ^ s.length + gf2 s := by
  have hfirst : gf2 [b] = C (bitCoeff b) := (gf2_append_singleton [] b).trans (by simp [gf2])
  rw [← List.singleton_append, gf2_append, hfirst]

theorem gf2_cons_false (s : Bits) : gf2 (false :: s) = gf2 s := by
  rw [gf2_cons, show bitCoeff false = 0 from rfl, C_0, zero_mul, zero_add]

theorem gf2_cons_true (s : Bits) : gf2 (true :: s) = X ^ s.length + gf2 s := by
  rw [gf2_cons, show bitCoeff true = 1 from rfl, C_1, one_mul]

theorem gf2_zeros_append (k : Nat) (s : Bits) : gf2 (List.replicate k false ++ s) = gf2 s := by
  induction k with
  | zero => rfl
  | succ k ih => rw [List.replicate_succ, List.cons_append, gf2_cons_false, ih]

theorem gf2_zeros (k : Nat) : gf2 (List.replicate k false) = 0 := by
  rw [← List.append_nil (List.replicate k false), gf2_zeros_append]
  rfl

theorem gf2_append_zeros (s : Bits) (k : Nat) : gf2 (s ++ List.replicate k false) = gf2 s * X ^ k := by
  rw [gf2_append, gf2_zeros, add_zero, List.length_replicate]

/-- Exclusive or is addition (41_crc_divider.md R80). -/
theorem gf2_xorBits {s t : Bits} (h : s.length = t.length) : gf2 (xorBits s t) = gf2 s + gf2 t := by
  induction s generalizing t with
  | nil =>
    rw [List.length_eq_zero_iff.mp h.symm]
    exact (add_zero _).symm
  | cons a s ih =>
    match t, h with
    | b :: t, h =>
      have hlen : s.length = t.length := Nat.succ.inj h
      have hxor : (xorBits s t).length = t.length := by rw [length_xorBits, hlen, min_self]
      rw [xorBits_cons, gf2_cons, gf2_cons, gf2_cons, ih hlen, bitCoeff_xor, C_add, hxor, hlen]
      ring

theorem degree_gf2_lt (s : Bits) : (gf2 s).degree < s.length := by
  induction s with
  | nil => exact (degree_zero (R := ZMod 2)).trans_lt (WithBot.bot_lt_coe 0)
  | cons b s ih =>
    have hgrow : (s.length : WithBot Nat) < (b :: s).length := by
      rw [List.length_cons]
      exact_mod_cast Nat.lt_succ_self s.length
    rw [gf2_cons]
    exact (degree_add_le _ _).trans_lt (max_lt ((degree_C_mul_X_pow_le _ _).trans_lt hgrow) (ih.trans hgrow))

/-- The last bit is the constant coefficient. -/
theorem coeff_zero_gf2_append_singleton (s : Bits) (b : Bit) : (gf2 (s ++ [b])).coeff 0 = bitCoeff b := by
  rw [gf2_append_singleton, coeff_add, coeff_mul_X_zero, coeff_C_zero, zero_add]

theorem gf2_injective {s t : Bits} (hlen : s.length = t.length) (h : gf2 s = gf2 t) : s = t := by
  induction s using List.reverseRecOn generalizing t with
  | nil => exact (List.length_eq_zero_iff.mp hlen.symm).symm
  | append_singleton s a ih =>
    obtain rfl | ⟨t, b, rfl⟩ := List.eq_nil_or_concat' t
    · simp at hlen
    · have hlast : a = b := bitCoeff_injective <| by
        rw [← coeff_zero_gf2_append_singleton s, h, coeff_zero_gf2_append_singleton]
      rw [gf2_append_singleton, gf2_append_singleton, hlast] at h
      have hfront : gf2 s = gf2 t := mul_right_cancel₀ X_ne_zero (add_right_cancel h)
      rw [hlast, ih (by simpa using hlen) hfront]

theorem eq_zeros_of_gf2_eq_zero {s : Bits} (h : gf2 s = 0) : s = List.replicate s.length false :=
  gf2_injective (List.length_replicate ..).symm (h.trans (gf2_zeros _).symm)

/-! ### The generator (10_state.md R12) -/

/-- A legal polynomial starts with 1, and the bits behind it are `d`. -/
theorem exists_cons_of_legalPoly {poly : Bits} (h : legalPoly poly = true) : ∃ p, poly = true :: p := by
  obtain ⟨hfirst, -⟩ := legalPoly_iff.mp h
  match poly, hfirst with
  | _ :: p, hfirst => exact ⟨p, congrArg (· :: p) (Option.some.inj hfirst)⟩

theorem monic_gf2_cons_true (p : Bits) : (gf2 (true :: p)).Monic :=
  gf2_cons_true p ▸ monic_X_pow_add (degree_gf2_lt p)

theorem degree_gf2_cons_true (p : Bits) : (gf2 (true :: p)).degree = p.length := by
  have hlow : (gf2 p).degree < (X ^ p.length : (ZMod 2)[X]).degree := by
    rw [degree_X_pow]
    exact degree_gf2_lt p
  rw [gf2_cons_true, degree_add_eq_left_of_degree_lt hlow, degree_X_pow]

theorem monic_gf2_of_legalPoly {poly : Bits} (h : legalPoly poly = true) : (gf2 poly).Monic := by
  obtain ⟨p, rfl⟩ := exists_cons_of_legalPoly h
  exact monic_gf2_cons_true p

end Sys2Proof.Proofs
end

section
/-! SUPPORT. The window scan (41_crc_divider.md R81) as a recursion on the buffer: each position clears the bit it stands on
and leaves the polynomial division of the bits behind it to the next (R83 (a), (c)). -/

namespace Sys2Proof.Proofs

open Sys2Proof.Machine Polynomial

/-! ### A scan does not see the bits it has passed -/

theorem xorWindow_cons (poly work : Bits) (b : Bit) (i : Nat) :
    xorWindow poly (b :: work) (i + 1) = b :: xorWindow poly work i := by
  simp only [xorWindow, memWrite, memRead, List.drop_succ_cons, List.take_succ_cons, List.cons_append,
    Nat.add_right_comm i 1]

theorem scan_cons (poly : Bits) (k i : Nat) (b : Bit) (work : Bits) :
    scan poly k (i + 1) (b :: work) = b :: scan poly k i work := by
  induction k generalizing i work with
  | zero => rfl
  | succ k ih =>
    rw [scan, scan, List.getD_cons_succ, xorWindow_cons, ← ih]
    split <;> rfl

/-! ### One position -/

/-- What one position leaves behind the bit `b` it stands on: `p` is the polynomial without its first bit. -/
def behindWindow (p : Bits) (b : Bit) (s : Bits) : Bits :=
  if b then xorBits (s.take p.length) p ++ s.drop p.length else s

section
variable {p s : Bits} (hlen : p.length ≤ s.length)
include hlen

theorem length_behindWindow (b : Bit) : (behindWindow p b s).length = s.length := by
  cases b with
  | false => rfl
  | true =>
    rw [behindWindow, if_pos rfl, List.length_append, length_xorBits, List.length_take, List.length_drop]
    omega

/-- The first bit of the polynomial is 1, so a window that is used clears its own first bit. -/
theorem xorWindow_zero : xorWindow (true :: p) (true :: s) 0 = false :: behindWindow p true s := by
  have hwin : (xorBits (s.take p.length) p).length = p.length := by
    rw [length_xorBits, List.length_take]
    omega
  rw [xorWindow, memRead, List.drop_zero, List.length_cons, List.take_succ_cons, xorBits_cons, memWrite,
    List.take_zero, List.nil_append, List.length_cons, hwin, Nat.zero_add, List.drop_succ_cons]
  rfl

theorem scan_succ (k : Nat) (b : Bit) :
    scan (true :: p) (k + 1) 0 (b :: s) = false :: scan (true :: p) k 0 (behindWindow p b s) := by
  cases b with
  | false => exact scan_cons (true :: p) k 0 false s
  | true =>
    rw [scan, List.getD_cons_zero, if_pos rfl, xorWindow_zero hlen]
    exact scan_cons (true :: p) k 0 false _

/-- A used window adds a multiple of the generator, and an unused one stands on a zero. -/
theorem gf2_behindWindow (b : Bit) : gf2 (true :: p) ∣ gf2 (b :: s) - gf2 (behindWindow p b s) := by
  cases b with
  | false => exact (sub_eq_zero.mpr (gf2_cons_false s)).symm ▸ dvd_zero _
  | true =>
    obtain ⟨u, v, rfl, hu⟩ : ∃ u v, s = u ++ v ∧ u.length = p.length :=
      ⟨s.take p.length, s.drop p.length, (List.take_append_drop _ _).symm, List.length_take_of_le hlen⟩
    have hbehind : behindWindow p true (u ++ v) = xorBits u p ++ v := by
      rw [behindWindow, if_pos rfl, List.take_left' hu, List.drop_left' hu]
    refine ⟨X ^ v.length, ?_⟩
    rw [hbehind, gf2_cons_true, gf2_cons_true, gf2_append, gf2_append, gf2_xorBits hu, List.length_append, hu, pow_add,
      CharTwo.sub_eq_add]
    linear_combination gf2 u * X ^ v.length * CharTwo.two_eq_zero (R := (ZMod 2)[X]) +
      gf2 v * CharTwo.two_eq_zero (R := (ZMod 2)[X])

end

/-! ### The whole scan -/

/-- A buffer long enough for one more position starts with a bit. -/
theorem exists_cons_of_succ_add_le {buf : Bits} {k d : Nat} (h : k + 1 + d ≤ buf.length) :
    ∃ b s, buf = b :: s ∧ k + d ≤ s.length := by
  obtain ⟨b, s, rfl⟩ := List.exists_cons_of_length_pos (l := buf) (by omega)
  rw [List.length_cons] at h
  exact ⟨b, s, rfl, by omega⟩

theorem scan_clears {p buf : Bits} {k : Nat} (h : k + p.length ≤ buf.length) :
    (scan (true :: p) k 0 buf).take k = List.replicate k false := by
  induction k generalizing buf with
  | zero => rfl
  | succ k ih =>
    obtain ⟨b, s, rfl, hs⟩ := exists_cons_of_succ_add_le h
    have hlen : p.length ≤ s.length := by omega
    rw [scan_succ hlen, List.take_succ_cons, ih (by rwa [length_behindWindow hlen]), List.replicate_succ]

theorem dvd_gf2_sub_gf2_scan {p buf : Bits} {k : Nat} (h : k + p.length ≤ buf.length) :
    gf2 (true :: p) ∣ gf2 buf - gf2 (scan (true :: p) k 0 buf) := by
  induction k generalizing buf with
  | zero => exact (sub_self (gf2 buf)).symm ▸ dvd_zero _
  | succ k ih =>
    obtain ⟨b, s, rfl, hs⟩ := exists_cons_of_succ_add_le h
    have hlen : p.length ≤ s.length := by omega
    have hrest := ih (buf := behindWindow p b s) (by rwa [length_behindWindow hlen])
    rw [scan_succ hlen, gf2_cons_false]
    exact sub_add_sub_cancel (gf2 (b :: s)) _ _ ▸ dvd_add (gf2_behindWindow hlen b) hrest

/-- Settles O19: each position clears the bit it stands on, and later ones do not reach back. -/
theorem scanClearsPrefix : Obligations.ScanClearsPrefix := by
  intro poly buf k hpoly h
  obtain ⟨p, rfl⟩ := exists_cons_of_legalPoly hpoly
  exact scan_clears (by rw [List.length_cons] at h; omega)

/-! ### The remainder -/

theorem length_le_of_divide {poly buf w : Bits} (h : divide poly buf = some w) : poly.length ≤ buf.length :=
  Nat.not_lt.mp fun hshort => Option.some_ne_none w (h.symm.trans (divide_eq_none.mpr hshort))

/-- The scan takes as many positions as the polynomial's first bit can stand on. -/
theorem scan_of_divide {p buf w : Bits} (h : divide (true :: p) buf = some w) :
    scan (true :: p) (buf.length - p.length) 0 buf = w := by
  have hlong := length_le_of_divide h
  rw [divide, if_neg (Nat.not_lt.mpr hlong)] at h
  rw [List.length_cons] at hlong
  rw [← Option.some.inj h, List.length_cons]
  congr 1
  omega

/-- What `DIVIDE` leaves: zeros in front of the remainder, and all in all the buffer up to a multiple of the generator. -/
theorem divide_spec {poly buf w : Bits} (hpoly : legalPoly poly = true) (h : divide poly buf = some w) :
    w.take (buf.length - degree poly) = List.replicate (buf.length - degree poly) false ∧
      gf2 poly ∣ gf2 buf - gf2 w := by
  obtain ⟨p, rfl⟩ := exists_cons_of_legalPoly hpoly
  have hdegree : degree (true :: p) = p.length := rfl
  have hroom : buf.length - p.length + p.length ≤ buf.length := by
    have hlong := length_le_of_divide h
    rw [List.length_cons] at hlong
    omega
  rw [hdegree, ← scan_of_divide h]
  exact ⟨scan_clears hroom, dvd_gf2_sub_gf2_scan hroom⟩

theorem gf2_remainder {poly buf w : Bits} (hpoly : legalPoly poly = true) (h : divide poly buf = some w) :
    gf2 (remainder poly w) = gf2 w := by
  obtain ⟨hclear, -⟩ := divide_spec hpoly h
  have hw : w = List.replicate (buf.length - degree poly) false ++ remainder poly w := by
    rw [← hclear, remainder, length_divide h, List.take_append_drop]
  calc gf2 (remainder poly w)
      = gf2 (List.replicate (buf.length - degree poly) false ++ remainder poly w) := (gf2_zeros_append _ _).symm
    _ = gf2 w := by rw [← hw]

theorem degree_gf2_of_legalPoly {poly : Bits} (hpoly : legalPoly poly = true) : (gf2 poly).degree = degree poly := by
  obtain ⟨p, rfl⟩ := exists_cons_of_legalPoly hpoly
  exact degree_gf2_cons_true p

/-- A sequence of `d` bits is its own remainder. -/
theorem gf2_modByMonic_self {poly r : Bits} (hpoly : legalPoly poly = true) (hr : r.length = degree poly) :
    gf2 r %ₘ gf2 poly = gf2 r := by
  rw [modByMonic_eq_self_iff (monic_gf2_of_legalPoly hpoly), degree_gf2_of_legalPoly hpoly, ← hr]
  exact degree_gf2_lt r

/-- R83 (c). -/
theorem gf2_remainder_eq_mod {poly buf w : Bits} (hpoly : legalPoly poly = true) (h : divide poly buf = some w) :
    gf2 (remainder poly w) = gf2 buf %ₘ gf2 poly := by
  obtain ⟨-, hdvd⟩ := divide_spec hpoly h
  rw [← gf2_modByMonic_self hpoly (length_remainder h), gf2_remainder hpoly h]
  exact (modByMonic_eq_of_dvd_sub (monic_gf2_of_legalPoly hpoly) hdvd).symm

/-- Settles O18: the scan clears all but the last `d` bits and subtracts multiples of the generator only. -/
theorem divideComputesRemainder : Obligations.DivideComputesRemainder := by
  intro poly buf w hpoly h
  obtain ⟨hclear, -⟩ := divide_spec hpoly h
  exact ⟨hclear, length_remainder h, gf2_remainder_eq_mod hpoly h⟩

theorem exists_divRem_of_le {poly buf : Bits} (h : poly.length ≤ buf.length) : ∃ r, divRem poly buf = some r := by
  obtain ⟨w, hdiv⟩ := exists_divide_of_le h
  exact ⟨_, divRem_of_divide hdiv⟩

/-- What `DIVIDE` returns is determined by its length and its polynomial: what the proofs below use instead of the scan. -/
theorem divRem_eq_some_iff {poly buf r : Bits} (hpoly : legalPoly poly = true) :
    divRem poly buf = some r ↔
      poly.length ≤ buf.length ∧ r.length = degree poly ∧ gf2 r = gf2 buf %ₘ gf2 poly := by
  constructor
  · intro h
    obtain ⟨w, hdiv, rfl⟩ := Option.map_eq_some_iff.mp h
    exact ⟨length_le_of_divide hdiv, length_remainder hdiv, gf2_remainder_eq_mod hpoly hdiv⟩
  · rintro ⟨hlen, hr, hgf⟩
    obtain ⟨w, hdiv⟩ := exists_divide_of_le hlen
    have hrem : remainder poly w = r :=
      gf2_injective ((length_remainder hdiv).trans hr.symm) ((gf2_remainder_eq_mod hpoly hdiv).trans hgf.symm)
    rw [divRem_of_divide hdiv, hrem]

end Sys2Proof.Proofs
end

section
/-! SUPPORT. The algebra of the remainder (41_crc_divider.md R83 (d), (e)) and what it makes of frames and errors (R90 to
R92). -/

namespace Sys2Proof.Proofs

open Sys2Proof.Machine Polynomial

section
variable {poly : Bits} (hpoly : legalPoly poly = true)
include hpoly

theorem divRem_xorBits {a b ra rb : Bits} (hlen : a.length = b.length) (ha : divRem poly a = some ra)
    (hb : divRem poly b = some rb) : divRem poly (xorBits a b) = some (xorBits ra rb) := by
  obtain ⟨hla, hra, hga⟩ := (divRem_eq_some_iff hpoly).mp ha
  obtain ⟨-, hrb, hgb⟩ := (divRem_eq_some_iff hpoly).mp hb
  refine (divRem_eq_some_iff hpoly).mpr ⟨?_, ?_, ?_⟩
  · rwa [length_xorBits, ← hlen, min_self]
  · rw [length_xorBits, hra, hrb, min_self]
  · rw [gf2_xorBits (hra.trans hrb.symm), gf2_xorBits hlen, add_modByMonic, hga, hgb]

/-- A buffer that is long enough has the remainder zero exactly when the generator divides it. -/
theorem divRem_eq_zeros_iff {buf : Bits} (hlen : poly.length ≤ buf.length) :
    divRem poly buf = some (List.replicate (degree poly) false) ↔ gf2 poly ∣ gf2 buf := by
  rw [divRem_eq_some_iff hpoly, gf2_zeros, eq_comm (a := (0 : (ZMod 2)[X])),
    modByMonic_eq_zero_iff_dvd (monic_gf2_of_legalPoly hpoly)]
  exact ⟨fun h => h.2.2, fun h => ⟨hlen, List.length_replicate .., h⟩⟩

theorem divRem_zeros {m : Nat} (hlen : poly.length ≤ m) :
    divRem poly (List.replicate m false) = some (List.replicate (degree poly) false) :=
  (divRem_eq_zeros_iff hpoly (by rwa [List.length_replicate])).mpr (gf2_zeros m ▸ dvd_zero _)

theorem divRem_zeros_append {a : Bits} (t : Nat) (hlen : poly.length ≤ a.length) :
    divRem poly (List.replicate t false ++ a) = divRem poly a := by
  obtain ⟨r, ha⟩ := exists_divRem_of_le hlen
  obtain ⟨-, hr, hgf⟩ := (divRem_eq_some_iff hpoly).mp ha
  rw [ha]
  refine (divRem_eq_some_iff hpoly).mpr ⟨?_, hr, ?_⟩
  · rw [List.length_append]
    exact hlen.trans (Nat.le_add_left _ _)
  · rw [gf2_zeros_append, hgf]

end

/-- Settles O20: taking the remainder is additive. -/
theorem divideIsLinear : Obligations.DivideIsLinear := by
  intro poly a b ra rb hpoly hlen ha hb
  obtain ⟨hla, -, -⟩ := (divRem_eq_some_iff hpoly).mp ha
  exact ⟨divRem_xorBits hpoly hlen ha hb, divRem_zeros hpoly hla⟩

/-- Settles O21: leading zeros add nothing to the polynomial of a buffer. -/
theorem leadingZerosKeepRemainder : Obligations.LeadingZerosKeepRemainder := fun _ _ t hpoly hlen =>
  divRem_zeros_append hpoly t hlen

/-! ### `VAL` (R89) -/

theorem exec_chkcrc_of_divRem {s : State} {x r : Bits} (hx : Ready s x) (h : divRem s.cfg.poly x = some r) :
    ∃ t, exec .chkcrc s = .next t ∧ t.st = 0#2 ∧ t.val = some (valOf r) := by
  obtain ⟨w, hdiv, rfl⟩ := Option.map_eq_some_iff.mp h
  exact ⟨_, (exec_chkcrc_of_ready hx).trans ((withDivide_some hdiv _).trans (respond_next.mpr ⟨rfl, rfl⟩)), rfl, rfl⟩

theorem valOf_zeros (n : Nat) : valOf (List.replicate n false) = 0 := by
  induction n with
  | zero => rfl
  | succ n ih => rw [List.replicate_succ', valOf_append, ih]; rfl

theorem valOf_injective {s t : Bits} (hlen : s.length = t.length) (h : valOf s = valOf t) : s = t := by
  rw [← bitsOf_valOf s, ← bitsOf_valOf t, hlen, h]

theorem eq_zeros_of_valOf_eq_zero {s : Bits} (h : valOf s = 0) : s = List.replicate s.length false :=
  valOf_injective (List.length_replicate ..).symm (h.trans (valOf_zeros _).symm)

/-! ### A payload and its CRC (R90) -/

/-- The frame is the padded payload with the remainder added in the place of the zeros. -/
theorem divRem_frame {poly x c : Bits} (hpoly : legalPoly poly = true)
    (h : divRem poly (x ++ zeros (degree poly)) = some c) :
    divRem poly (x ++ c) = some (List.replicate (degree poly) false) := by
  obtain ⟨hlen, hc, hgf⟩ := (divRem_eq_some_iff hpoly).mp h
  have hframe : (x ++ zeros (degree poly)).length = (x ++ c).length := by
    rw [List.length_append, List.length_append, length_zeros, hc]
  rw [zeros, gf2_append_zeros] at hgf
  rw [divRem_eq_zeros_iff hpoly (hframe ▸ hlen), ← modByMonic_eq_zero_iff_dvd (monic_gf2_of_legalPoly hpoly),
    gf2_append, add_modByMonic, hc, ← hgf, gf2_modByMonic_self hpoly hc, CharTwo.add_self_eq_zero]

theorem exec_gencrc_of_divRem {s : State} {x c : Bits} (hx : Ready s x)
    (h : divRem s.cfg.poly (x ++ zeros (degree s.cfg.poly)) = some c) (hfits : fits s.params c.length = true) :
    ∃ t, exec .gencrc s = .next t ∧ t.st = stOk ∧ t.out = some c := by
  obtain ⟨w, hdiv, rfl⟩ := Option.map_eq_some_iff.mp h
  exact ⟨_, (exec_gencrc_of_ready hx).trans ((withDivide_some hdiv _).trans
    (respond_next.mpr ⟨responseFits_out hfits, rfl⟩)), rfl, rfl⟩

theorem formFrameFrom_of_out {s : State} {x o : Bits} (hx : Ready s x) (hst : s.st = stOk) (hout : s.out = some o)
    (hfits : fits s.params (x ++ o).length = true) :
    formFrameFrom s = .next ((s.setInBuf (x ++ o)).setInLen (x ++ o).length) := by
  rw [formFrameFrom, if_pos hst, withInput_of_ready hx]
  exact withOut_next.mpr ⟨o, hout, loadInput_next.mpr ⟨hfits, rfl⟩⟩

theorem formFrameFrom_of_error {s : State} (hst : s.st ≠ stOk) : formFrameFrom s = .next s := if_neg hst

/-- Settles O22: the host forms the frame whose remainder is zero. -/
theorem crcRoundTrip : Obligations.CrcRoundTrip := by
  intro s x hpoly hx hne hfits
  obtain ⟨c, hgen⟩ := exists_divRem_of_le ((length_le_padded_iff hpoly x).mpr hne)
  obtain ⟨-, hc, -⟩ := (divRem_eq_some_iff hpoly).mp hgen
  obtain ⟨t, hgencrc, hst, hout⟩ := exec_gencrc_of_divRem hx hgen (fits_of_le (hc ▸ Nat.le_add_left _ _) hfits)
  have hin := sameInput_of_exec hgencrc
  have hframe : fits t.params (x ++ c).length = true := by rwa [hin.params, List.length_append, hc]
  have hzero : divRem t.cfg.poly (x ++ c) = some (List.replicate (degree s.cfg.poly) false) := by
    rw [hin.cfg]
    exact divRem_frame hpoly hgen
  obtain ⟨v, hchk, hvst, hval⟩ := exec_chkcrc_of_divRem (ready_loadInput hframe) hzero
  exact ⟨t, _, v, hgencrc, formFrameFrom_of_out (hin.ready hx) hst hout hframe, hchk, hvst,
    hval.trans (congrArg some (valOf_zeros _))⟩

/-- Settles O58: the status is 0 exactly where there is a CRC, and only then the host forms a frame. -/
theorem frameCrcFormsTheFrame : Obligations.FrameCrcFormsTheFrame := by
  intro s t x hx h
  have hxt : Ready t x := (sameInput_of_exec h).ready hx
  obtain ⟨_, -, ⟨-, rfl⟩ | ⟨w, -, -, rfl⟩⟩ := execGencrc_next h
  · exact ⟨fun hst => absurd (show stInvalidInputLength = 0#2 from hst) (by decide), formFrameFrom_of_error⟩
  · refine ⟨fun hst => ⟨_, rfl, fun hfits => ?_⟩, fun hst => absurd rfl hst⟩
    rw [← List.length_append] at hfits ⊢
    exact formFrameFrom_of_out hxt rfl rfl hfits

/-! ### A corrupted frame (R91, R92) -/

theorem xorBits_zeros_left {r : Bits} {n : Nat} (h : r.length = n) : xorBits (List.replicate n false) r = r := by
  subst h
  induction r with
  | nil => rfl
  | cons b r ih => rw [List.length_cons, List.replicate_succ, xorBits_cons, ih, Bool.false_xor]

/-- R91: the frame itself adds nothing to the remainder. -/
theorem divRem_corrupted {poly f e : Bits} (hpoly : legalPoly poly = true) (hlen : f.length = e.length)
    (hf : divRem poly f = some (List.replicate (degree poly) false)) :
    ∃ r, divRem poly e = some r ∧ divRem poly (xorBits f e) = some r := by
  obtain ⟨hl, -, -⟩ := (divRem_eq_some_iff hpoly).mp hf
  obtain ⟨r, he⟩ := exists_divRem_of_le (hlen ▸ hl)
  obtain ⟨-, hr, -⟩ := (divRem_eq_some_iff hpoly).mp he
  refine ⟨r, he, ?_⟩
  rw [divRem_xorBits hpoly hlen hf he, xorBits_zeros_left hr]

/-- Settles O23: the remainder of the corrupted frame is that of the error pattern. -/
theorem chkcrcSeesOnlyErrorPattern : Obligations.ChkcrcSeesOnlyErrorPattern := by
  intro s f e hpoly hlen hf hx
  obtain ⟨r, he, hfe⟩ := divRem_corrupted hpoly hlen hf
  exact ⟨r, he, exec_chkcrc_of_divRem hx hfe⟩

/-- With the constant term 1 the generator has no factor `X`. -/
theorem isCoprime_gf2_X_pow {poly : Bits} (hlast : poly.getLast? = some true) (c : Nat) :
    IsCoprime (gf2 poly) (X ^ c) := by
  obtain ⟨q, rfl⟩ := List.getLast?_eq_some_iff.mp hlast
  have hconst : ¬ X ∣ gf2 (q ++ [true]) := by
    rw [X_dvd_iff, coeff_zero_gf2_append_singleton]
    decide
  exact ((irreducible_X.coprime_iff_not_dvd.mpr hconst).symm).pow_right

/-- A burst of at most `d` bits is no multiple of the generator unless it is zero. -/
theorem not_dvd_gf2_burst {poly burst : Bits} (hpoly : legalPoly poly = true) (hlast : poly.getLast? = some true)
    (hlen : burst.length ≤ degree poly) (hmem : true ∈ burst) (a c : Nat) :
    ¬ gf2 poly ∣ gf2 (List.replicate a false ++ burst ++ List.replicate c false) := by
  intro hdvd
  rw [gf2_append_zeros, gf2_zeros_append] at hdvd
  have hburst : gf2 poly ∣ gf2 burst := (isCoprime_gf2_X_pow hlast c).dvd_of_dvd_mul_right hdvd
  have hdegree : (gf2 burst).degree < (gf2 poly).degree := by
    rw [degree_gf2_of_legalPoly hpoly]
    exact (degree_gf2_lt burst).trans_le (by exact_mod_cast hlen)
  have hzero := eq_zeros_of_gf2_eq_zero (eq_zero_of_dvd_of_degree_lt hburst hdegree)
  exact absurd (List.eq_of_mem_replicate (hzero ▸ hmem)) (by decide)

/-- Settles O24: a remainder of value 0 would make the generator divide the burst. -/
theorem burstsAreDetected : Obligations.BurstsAreDetected := by
  intro s f burst a c hpoly hlast hf hlen hmem htotal hx
  have hpattern : f.length = (List.replicate a false ++ burst ++ List.replicate c false).length := by
    rw [List.length_append, List.length_append, List.length_replicate, List.length_replicate, htotal]
  obtain ⟨r, he, hfe⟩ := divRem_corrupted hpoly hpattern hf
  obtain ⟨t, hexec, hst, hval⟩ := exec_chkcrc_of_divRem hx hfe
  refine ⟨t, hexec, hst, _, hval, fun hzero => ?_⟩
  obtain ⟨hle, hr, -⟩ := (divRem_eq_some_iff hpoly).mp he
  rw [eq_zeros_of_valOf_eq_zero hzero, hr, divRem_eq_zeros_iff hpoly hle] at he
  exact not_dvd_gf2_burst hpoly hlast hlen hmem a c he

end Sys2Proof.Proofs
end

section
/-! SUPPORT. `FOLD` is reduction modulo `M = 2^W - 1` that answers 0 for 0 alone (42_checksum.md R105, R106): the two facts
that determine it, and what follows for the accumulator that folds at every addition. -/

namespace Sys2Proof.Proofs

open Sys2Proof.Machine

/-- `2^W` is 1 modulo `M`. -/
theorem two_pow_modEq_one (n : Nat) : 2 ^ n ≡ 1 [MOD 2 ^ n - 1] :=
  ((Nat.modEq_iff_dvd' Nat.one_le_two_pow).mpr dvd_rfl).symm

/-- A pass puts the weight 1 in the place of `2^W` (R105). -/
theorem foldPass_modEq (v n : Nat) : foldPass v n ≡ v [MOD 2 ^ n - 1] := by
  have hhigh := (two_pow_modEq_one n).mul_right (v / 2 ^ n)
  calc foldPass v n = v % 2 ^ n + 1 * (v / 2 ^ n) := by rw [foldPass, one_mul]
    _ ≡ v % 2 ^ n + 2 ^ n * (v / 2 ^ n) [MOD 2 ^ n - 1] := hhigh.symm.add_left _
    _ = v := Nat.mod_add_div v (2 ^ n)

theorem foldPass_pos {v n : Nat} (hv : 2 ^ n ≤ v) : 0 < foldPass v n := by
  have hhigh : 0 < v / 2 ^ n := Nat.div_pos hv (Nat.two_pow_pos n)
  rw [foldPass]
  omega

section
variable {n : Nat} (hn : 1 ≤ n)
include hn

theorem fold_modEq (v : Nat) : fold v n ≡ v [MOD 2 ^ n - 1] := by
  induction v using Nat.strong_induction_on with
  | _ v ih =>
    rcases Nat.lt_or_ge v (2 ^ n) with hv | hv
    · rw [fold_of_lt hv]
    · rw [fold_of_le hn hv]
      exact (ih _ (foldPass_lt hn hv)).trans (foldPass_modEq v n)

theorem fold_eq_zero_iff (v : Nat) : fold v n = 0 ↔ v = 0 := by
  induction v using Nat.strong_induction_on with
  | _ v ih =>
    rcases Nat.lt_or_ge v (2 ^ n) with hv | hv
    · rw [fold_of_lt hv]
    · have hpass := foldPass_pos hv
      have hpos := Nat.two_pow_pos n
      rw [fold_of_le hn hv, ih _ (foldPass_lt hn hv)]
      omega

theorem mask_pos : 0 < 2 ^ n - 1 := Nat.sub_pos_of_lt (Nat.one_lt_two_pow (by omega))

theorem fold_eq_mask_iff (v : Nat) : fold v n = 2 ^ n - 1 ↔ 0 < v ∧ 2 ^ n - 1 ∣ v := by
  have hmod := fold_modEq hn v
  have hzero := fold_eq_zero_iff hn v
  have hmask := mask_pos hn
  constructor
  · intro hfold
    exact ⟨by omega, (hmod.dvd_iff dvd_rfl).mp (by rw [hfold])⟩
  · rintro ⟨hpos, hdvd⟩
    have hle := fold_le v hn
    have hge := Nat.le_of_dvd (by omega) ((hmod.dvd_iff dvd_rfl).mpr hdvd)
    omega

/-- Two values fold alike when they are congruent and neither or both are 0. -/
theorem fold_eq_fold {a b : Nat} (hmod : a ≡ b [MOD 2 ^ n - 1]) (hzero : a = 0 ↔ b = 0) : fold a n = fold b n := by
  have hab : fold a n ≡ fold b n [MOD 2 ^ n - 1] := ((fold_modEq hn a).trans hmod).trans (fold_modEq hn b).symm
  have ha := fold_le a hn
  have hb := fold_le b hn
  have hmask : fold a n = 2 ^ n - 1 ↔ fold b n = 2 ^ n - 1 := by
    rw [fold_eq_mask_iff hn, fold_eq_mask_iff hn, hmod.dvd_iff dvd_rfl]
    omega
  rcases Nat.lt_or_ge (fold a n) (2 ^ n - 1) with hlt | hge
  · exact hab.eq_of_lt_of_lt hlt (by omega)
  · omega

theorem fold_add_fold (a b : Nat) : fold (fold a n + b) n = fold (a + b) n := by
  have hzero := fold_eq_zero_iff hn a
  exact fold_eq_fold hn ((fold_modEq hn a).add_right b) (by omega)

/-- R106, for a list of words and an accumulator that has been folded. -/
theorem foldl_fold (l : List Nat) (a : Nat) :
    l.foldl (fun acc x => fold (acc + x) n) (fold a n) = fold (a + l.sum) n := by
  induction l generalizing a with
  | nil => rfl
  | cons x l ih => rw [List.foldl_cons, fold_add_fold hn, ih, List.sum_cons, Nat.add_assoc]

end

/-- Settles O33: a pass keeps the value modulo `M` and keeps it positive, so `FOLD` does. -/
theorem foldIsReductionModuloM : Obligations.FoldIsReductionModuloM := fun v n hn =>
  ⟨foldPass_lt hn, fold_modEq hn v, fold_eq_zero_iff hn v, fold_eq_mask_iff hn v,
    fun hv => fold_of_lt ((Nat.le_sub_one_iff_lt (Nat.two_pow_pos n)).mp hv)⟩

/-- Settles O34: what is folded early is folded alike with the rest. -/
theorem foldAtEveryAddition : Obligations.FoldAtEveryAddition := by
  intro s n hn _
  have hstart : fold 0 n = 0 := (fold_eq_zero_iff hn 0).mpr rfl
  have hrun := foldl_fold hn (words s n) 0
  rwa [hstart, Nat.zero_add] at hrun

end Sys2Proof.Proofs
end

section
/-! SUPPORT. The verifiers (42_checksum.md R111 to R118): the folded total is the folded sum of the data portion and the
received checksum, so a frame passes `VERSUMS` when the two are complements, and `VERSUM` in one case more. -/

namespace Sys2Proof.Proofs

open Sys2Proof.Machine

/-! ### What the two flags ask of a frame (R113, R116) -/

theorem valOf_le_mask (s : Bits) : valOf s ≤ 2 ^ s.length - 1 := Nat.le_sub_one_of_lt (valOf_lt s)

theorem foldedSum_le (s : Bits) {n : Nat} (hn : 1 ≤ n) : foldedSum s n ≤ 2 ^ n - 1 := fold_le _ hn

/-- The words of the data portion may be folded before the received checksum is added (R106). -/
theorem fold_total (x : Bits) {n : Nat} (hn : 1 ≤ n) :
    fold (total x n) n = fold (foldedSum (dataPart x n) n + valOf (recvPart x n)) n := by
  rw [foldedSum, fold_add_fold hn, total]

/-- Two words add up to a multiple of the all-ones word in two ways. -/
theorem dvd_add_words_iff {m a b : Nat} (hm : 0 < m) (ha : a ≤ m) (hb : b ≤ m) :
    (0 < a + b ∧ m ∣ a + b) ↔ a + b = m ∨ (a = m ∧ b = m) := by
  constructor
  · rintro ⟨hpos, k, hk⟩
    have hk2 : k ≤ 2 := Nat.le_of_mul_le_mul_left (by omega : m * k ≤ m * 2) hm
    interval_cases k <;> omega
  · rintro (h | ⟨rfl, rfl⟩)
    · exact ⟨by omega, h ▸ dvd_rfl⟩
    · exact ⟨by omega, dvd_add dvd_rfl dvd_rfl⟩

theorem length_recvPart {x : Bits} {n : Nat} (h : n ≤ x.length) : (recvPart x n).length = n := by
  rw [recvPart, splitPoint, List.length_drop]
  omega

section
variable {x : Bits} {n : Nat} (hn : 1 ≤ n) (hlen : n ≤ x.length)
include hn hlen

theorem versum_accepts_iff :
    allOnesFlag (fold (total x n) n) n = true ↔
      foldedSum (dataPart x n) n + valOf (recvPart x n) = 2 ^ n - 1 ∨
        (foldedSum (dataPart x n) n = 2 ^ n - 1 ∧ valOf (recvPart x n) = 2 ^ n - 1) := by
  have hrecv := valOf_le_mask (recvPart x n)
  rw [length_recvPart hlen] at hrecv
  rw [allOnesFlag_eq_decide, decide_eq_true_iff, fold_total x hn, fold_eq_mask_iff hn,
    dvd_add_words_iff (mask_pos hn) (foldedSum_le _ hn) hrecv]

theorem versums_accepts_iff :
    sameBitsFlag (recvPart x n) (checksum (dataPart x n) n) = true ↔
      foldedSum (dataPart x n) n + valOf (recvPart x n) = 2 ^ n - 1 := by
  have hsum := foldedSum_le (dataPart x n) hn
  have hbits : recvPart x n = checksum (dataPart x n) n ↔ valOf (recvPart x n) = valOf (checksum (dataPart x n) n) :=
    ⟨fun h => congrArg valOf h, valOf_injective ((length_recvPart hlen).trans (length_checksum _ _).symm)⟩
  rw [sameBitsFlag_eq_decide, decide_eq_true_iff, hbits, valOf_checksum]
  omega

end

/-! ### The two operations on a ready frame -/

theorem pos_of_accepted {p : WidthPolicy} {n : Nat} (h : Accepted p n) : 1 ≤ n := Int.natCast_pos.mp h.1

theorem exec_versum_of_ready {s : State} {x : Bits} {n : Nat} (hx : Ready s x) (hacc : Accepted s.params.widthPolicy n) :
    ∃ t, exec (.versum n) s = .next t ∧ t.st = 0#2 ∧ t.flag = some (allOnesFlag (fold (total x n) n) n) :=
  ⟨_, versum_of_ready hx hacc, rfl, rfl⟩

theorem exec_versums_of_ready {s : State} {x : Bits} {n : Nat} (hx : Ready s x) (hacc : Accepted s.params.widthPolicy n)
    (hfits : fits s.params n = true) :
    ∃ t, exec (.versums n) s = .next t ∧ t.st = 0#2 ∧
      t.flag = some (sameBitsFlag (recvPart x n) (checksum (dataPart x n) n)) :=
  ⟨_, versums_of_ready hx hacc hfits, rfl, rfl⟩

/-! ### Frames shorter than `W` (R114) -/

theorem splitPoint_of_short {x : Bits} {n : Nat} (h : x.length < n) : splitPoint x n = 0 :=
  Nat.sub_eq_zero_of_le h.le

theorem recvPart_of_short {x : Bits} {n : Nat} (h : x.length < n) : recvPart x n = x := by
  rw [recvPart, splitPoint_of_short h, List.drop_zero]

/-- A short frame has no data portion. -/
theorem total_of_short {x : Bits} {n : Nat} (h : x.length < n) : total x n = valOf x := by
  have hpad : pad [] n = [] := pad_of_dvd (dvd_zero n)
  rw [total, recvPart_of_short h, dataPart, splitPoint_of_short h, List.take_zero, hpad, sumw_nil, Nat.zero_add]

theorem versum_rejects_short {x : Bits} {n : Nat} (h : x.length < n) : allOnesFlag (fold (total x n) n) n = false := by
  have hval := valOf_lt x
  have hpow : 2 ^ (x.length + 1) ≤ 2 ^ n := Nat.pow_le_pow_right (by decide) h
  have hpos := Nat.two_pow_pos x.length
  rw [pow_succ] at hpow
  rw [allOnesFlag_eq_decide, decide_eq_false_iff_not, total_of_short h, fold_of_lt (by omega)]
  omega

theorem versums_rejects_short {x : Bits} {n : Nat} (h : x.length < n) :
    sameBitsFlag (recvPart x n) (checksum (dataPart x n) n) = false := by
  rw [sameBitsFlag_eq_decide, decide_eq_false_iff_not, recvPart_of_short h]
  intro heq
  have hlen := congrArg List.length heq
  rw [length_checksum] at hlen
  omega

/-- Settles O36: a short frame is a number too small to be all ones, and has fewer bits than a checksum. -/
theorem shortFramesAreInvalid : Obligations.ShortFramesAreInvalid := by
  intro s x n hx hacc hshort
  refine ⟨?_, fun hfits => ?_⟩
  · rw [← versum_rejects_short hshort]
    exact exec_versum_of_ready hx hacc
  · rw [← versums_rejects_short hshort]
    exact exec_versums_of_ready hx hacc hfits

/-! ### Where the verifiers disagree (R117) -/

theorem valOf_ones (n : Nat) : valOf (List.replicate n true) = 2 ^ n - 1 := by
  induction n with
  | zero => rfl
  | succ n ih =>
    have hpos := Nat.two_pow_pos n
    rw [List.replicate_succ', valOf_append, ih, pow_succ, Bool.toNat_true]
    omega

theorem valOf_eq_mask_iff {s : Bits} {n : Nat} (h : s.length = n) : valOf s = 2 ^ n - 1 ↔ s = List.replicate n true := by
  refine ⟨fun hval => valOf_injective (by rw [h, List.length_replicate]) (hval.trans (valOf_ones n).symm), ?_⟩
  rintro rfl
  exact valOf_ones n

/-- Of two flags the first accepts in one case more, which excludes the other. -/
theorem flags_differ_iff {a b : Bit} {P Q : Prop} (ha : a = true ↔ P ∨ Q) (hb : b = true ↔ P) (hPQ : Q → ¬ P) :
    (some a ≠ some b ↔ Q) ∧ (some a ≠ some b → some a = some true ∧ some b = some false) := by
  have hdiffer : a ≠ b ↔ Q := by
    rw [ne_eq, Bool.eq_iff_iff, ha, hb]
    tauto
  refine ⟨by rw [ne_eq, Option.some_inj, ← ne_eq, hdiffer], fun hne => ?_⟩
  have hQ : Q := hdiffer.mp fun heq => hne (congrArg some heq)
  rw [ha.mpr (.inr hQ), Bool.eq_false_iff.mpr (mt hb.mp (hPQ hQ))]
  exact ⟨rfl, rfl⟩

/-- Settles O37: both accept complements, and all ones twice is the other way to a multiple of the all-ones word. -/
theorem verifiersDisagreeOnlyOnAllOnes : Obligations.VerifiersDisagreeOnlyOnAllOnes := by
  intro s x n hx hacc hlen
  have hn := pos_of_accepted hacc
  obtain ⟨t, ht, -, htflag⟩ := exec_versum_of_ready hx hacc
  obtain ⟨u, hu, -, huflag⟩ := exec_versums_of_ready hx hacc (fits_of_le hlen hx.2)
  have hmask := mask_pos hn
  have hflags := flags_differ_iff (versum_accepts_iff hn hlen) (versums_accepts_iff hn hlen) (by omega)
  rw [valOf_eq_mask_iff (length_recvPart hlen), ← htflag, ← huflag] at hflags
  exact ⟨t, u, ht, hu, hflags⟩

/-! ### A payload and its checksum (R118) -/

theorem dataPart_append (x : Bits) {c : Bits} {n : Nat} (h : c.length = n) : dataPart (x ++ c) n = x := by
  rw [dataPart, splitPoint, List.length_append, h, Nat.add_sub_cancel, List.take_left]

theorem recvPart_append (x : Bits) {c : Bits} {n : Nat} (h : c.length = n) : recvPart (x ++ c) n = c := by
  rw [recvPart, splitPoint, List.length_append, h, Nat.add_sub_cancel, List.drop_left]

theorem checksum_complements (x : Bits) {n : Nat} (hn : 1 ≤ n) :
    foldedSum x n + valOf (checksum x n) = 2 ^ n - 1 :=
  (sumAndChecksumAreComplements x n hn).2.2

theorem versum_accepts_frame (x : Bits) {n : Nat} (hn : 1 ≤ n) :
    allOnesFlag (fold (total (x ++ checksum x n) n) n) n = true := by
  have hlen : n ≤ (x ++ checksum x n).length := by
    rw [List.length_append, length_checksum]
    exact Nat.le_add_left _ _
  rw [versum_accepts_iff hn hlen, dataPart_append x (length_checksum x n), recvPart_append x (length_checksum x n)]
  exact .inl (checksum_complements x hn)

theorem versums_accepts_frame (x : Bits) (n : Nat) :
    sameBitsFlag (recvPart (x ++ checksum x n) n) (checksum (dataPart (x ++ checksum x n) n) n) = true := by
  rw [sameBitsFlag_eq_decide, dataPart_append x (length_checksum x n), recvPart_append x (length_checksum x n)]
  exact decide_eq_true rfl

/-- `ADDSUM` answers, and the host can take its frame as the input of an operation that has the same parameters. -/
theorem exec_addsum_takeOutput {s : State} {x : Bits} {n : Nat} (hx : Ready s x)
    (hacc : Accepted s.params.widthPolicy n) (hfits : fits s.params (x.length + n) = true) :
    ∃ t u, exec (.addsum n) s = .next t ∧ takeOutput t = .next u ∧ Ready u (x ++ checksum x n) ∧
      u.params = s.params := by
  have hframe : fits s.params (x ++ checksum x n).length = true := by rwa [List.length_append, length_checksum]
  exact ⟨_, _, addsum_of_ready hx hacc hfits, takeOutput_of_out rfl hframe, ready_loadInput hframe, rfl⟩

/-- Settles O38: the appended checksum is the complement of the folded sum, and the one recomputed from the payload. -/
theorem checksumRoundTrip : Obligations.ChecksumRoundTrip := by
  intro s x n hx hacc hfits
  obtain ⟨t, u, ht, hu, hready, hparams⟩ := exec_addsum_takeOutput hx hacc hfits
  rw [← hparams] at hacc hfits
  obtain ⟨v, hv, -, hvflag⟩ := exec_versum_of_ready hready hacc
  obtain ⟨w, hw, -, hwflag⟩ := exec_versums_of_ready hready hacc (fits_of_le (Nat.le_add_left _ _) hfits)
  rw [versum_accepts_frame x (pos_of_accepted hacc)] at hvflag
  rw [versums_accepts_frame] at hwflag
  exact ⟨t, u, v, w, ht, hu, hv, hvflag, hw, hwflag⟩

end Sys2Proof.Proofs
end

section
/-! SUPPORT. A flipped bit of a checksum frame (42_checksum.md R119): modulo `M = 2^W - 1` the sum of the words is the value
of the whole sequence, and one bit changes that by a power of two. -/

namespace Sys2Proof.Proofs

open Sys2Proof.Machine

/-! ### Flipping one bit -/

theorem flipAt_cons_zero (b : Bit) (s : Bits) : flipAt (b :: s) 0 = (!b) :: s := rfl

theorem flipAt_cons_succ (b : Bit) (s : Bits) (i : Nat) : flipAt (b :: s) (i + 1) = b :: flipAt s i := rfl

theorem flipAt_append_left {s : Bits} (t : Bits) {i : Nat} (hi : i < s.length) :
    flipAt (s ++ t) i = flipAt s i ++ t := by
  induction s generalizing i with
  | nil => cases hi
  | cons b s ih =>
    cases i with
    | zero => rfl
    | succ i => exact congrArg (b :: ·) (ih (Nat.lt_of_succ_lt_succ hi))

theorem flipAt_append_right (s t : Bits) (i : Nat) : flipAt (s ++ t) (s.length + i) = s ++ flipAt t i := by
  induction s with
  | nil => rw [List.length_nil, Nat.zero_add, List.nil_append, List.nil_append]
  | cons b s ih => rw [List.length_cons, Nat.succ_add, List.cons_append, flipAt_cons_succ, ih, List.cons_append]

theorem pad_flipAt {s : Bits} (n : Nat) {i : Nat} (hi : i < s.length) : pad (flipAt s i) n = flipAt (pad s n) i := by
  rw [pad, pad, length_flipAt, flipAt_append_left _ hi]

theorem valOf_cons (b : Bit) (s : Bits) : valOf (b :: s) = b.toNat * 2 ^ s.length + valOf s := by
  have hfirst : valOf [b] = b.toNat := by cases b <;> rfl
  rw [← List.singleton_append, valOf_append_bits, hfirst]

theorem valOf_flipAt {s : Bits} {i : Nat} (hi : i < s.length) :
    ∃ e, valOf (flipAt s i) = valOf s + 2 ^ e ∨ valOf s = valOf (flipAt s i) + 2 ^ e := by
  induction s generalizing i with
  | nil => cases hi
  | cons b s ih =>
    cases i with
    | zero =>
      refine ⟨s.length, ?_⟩
      rw [flipAt_cons_zero, valOf_cons, valOf_cons]
      cases b <;> simp <;> omega
    | succ i =>
      obtain ⟨e, he⟩ := ih (Nat.lt_of_succ_lt_succ hi)
      refine ⟨e, ?_⟩
      rw [flipAt_cons_succ, valOf_cons, valOf_cons, length_flipAt]
      omega

/-! ### The sum of the words modulo `M` -/

theorem sumw_modEq_valOf {s : Bits} {n : Nat} (hn : 1 ≤ n) (h : n ∣ s.length) : sumw s n ≡ valOf s [MOD 2 ^ n - 1] := by
  obtain ⟨k, hk⟩ := h
  induction k generalizing s with
  | zero =>
    rw [List.length_eq_zero_iff.mp hk, sumw_nil]
    rfl
  | succ k ih =>
    have hfront : (s.take (n * k)).length = n * k := List.length_take_of_le (by rw [hk]; exact Nat.le_add_right _ _)
    have hlast : (s.drop (n * k)).length = n := by
      rw [List.length_drop, hk, Nat.mul_succ, Nat.add_sub_cancel_left]
    have hword := sumw_append_word hn (Dvd.intro k hfront.symm) hlast
    have hval := valOf_append_bits (s.take (n * k)) (s.drop (n * k))
    rw [List.take_append_drop] at hword hval
    rw [hword, hval, hlast]
    have hshift := ((two_pow_modEq_one n).mul_left (valOf (s.take (n * k)))).symm
    rw [mul_one] at hshift
    exact ((ih hfront).trans hshift).add_right _

/-- For `W` of at least 2 the all-ones word is odd and not 1, so it divides no power of two. -/
theorem not_mask_dvd_two_pow {n : Nat} (hn : 2 ≤ n) (e : Nat) : ¬ 2 ^ n - 1 ∣ 2 ^ e := by
  intro hdvd
  have hfour : 2 ^ 2 ≤ 2 ^ n := Nat.pow_le_pow_right (by decide) hn
  have heven : 2 ∣ 2 ^ n := dvd_pow_self 2 (by omega)
  have hodd : Odd (2 ^ n - 1) := Nat.odd_iff.mpr (by omega)
  have hone := Nat.Coprime.eq_one_of_dvd ((Nat.coprime_two_right.mpr hodd).pow_right e) hdvd
  omega

theorem not_mask_dvd_sumw_flipAt {s : Bits} {n i : Nat} (hn : 2 ≤ n) (hs : n ∣ s.length) (hi : i < s.length)
    (hsum : 2 ^ n - 1 ∣ sumw s n) : ¬ 2 ^ n - 1 ∣ sumw (flipAt s i) n := by
  intro hflip
  have hpos : 1 ≤ n := by omega
  have hval := ((sumw_modEq_valOf hpos hs).dvd_iff dvd_rfl).mp hsum
  have hval' := ((sumw_modEq_valOf hpos (by rwa [length_flipAt])).dvd_iff dvd_rfl).mp hflip
  obtain ⟨e, he | he⟩ := valOf_flipAt hi
  · exact not_mask_dvd_two_pow hn e ((Nat.dvd_add_right hval).mp (he ▸ hval'))
  · exact not_mask_dvd_two_pow hn e ((Nat.dvd_add_right hval').mp (he ▸ hval))

/-! ### Frames -/

/-- A whole received checksum is one more word behind the padded data portion (R112). -/
theorem total_append (x : Bits) {c : Bits} {n : Nat} (hn : 1 ≤ n) (hc : c.length = n) :
    total (x ++ c) n = sumw (pad x n ++ c) n := by
  rw [total, dataPart_append x hc, recvPart_append x hc, sumw_append_word hn (dvd_length_pad x hn) hc]

theorem total_flipAt {x c : Bits} {n j : Nat} (hn : 1 ≤ n) (hc : c.length = n) (hj : j < x.length + n) :
    ∃ i < (pad x n ++ c).length, total (flipAt (x ++ c) j) n = sumw (flipAt (pad x n ++ c) i) n := by
  rcases Nat.lt_or_ge j x.length with hdata | hrecv
  · have hpad : j < (pad x n).length := hdata.trans_le (by rw [pad, List.length_append]; exact Nat.le_add_right _ _)
    refine ⟨j, hpad.trans_le (by rw [List.length_append]; exact Nat.le_add_right _ _), ?_⟩
    rw [flipAt_append_left c hdata, total_append _ hn hc, pad_flipAt n hdata, flipAt_append_left c hpad]
  · obtain ⟨i, rfl⟩ := Nat.exists_eq_add_of_le hrecv
    refine ⟨(pad x n).length + i, by rw [List.length_append]; omega, ?_⟩
    rw [flipAt_append_right, total_append _ hn (by rwa [length_flipAt]), flipAt_append_right]

theorem versum_rejects_flipped (x : Bits) {n j : Nat} (hn : 2 ≤ n) (hj : j < x.length + n) :
    allOnesFlag (fold (total (flipAt (x ++ checksum x n) j) n) n) n = false := by
  have hpos : 1 ≤ n := by omega
  have hc := length_checksum x n
  have hwhole : n ∣ (pad x n ++ checksum x n).length := by
    rw [List.length_append, hc]
    exact dvd_add (dvd_length_pad x hpos) dvd_rfl
  have hsum : 2 ^ n - 1 ∣ sumw (pad x n ++ checksum x n) n := by
    have haccepts := versum_accepts_frame x hpos
    rw [allOnesFlag_eq_decide, decide_eq_true_iff, fold_eq_mask_iff hpos, total_append x hpos hc] at haccepts
    exact haccepts.2
  obtain ⟨i, hi, htotal⟩ := total_flipAt hpos hc hj
  rw [allOnesFlag_eq_decide, decide_eq_false_iff_not, fold_eq_mask_iff hpos, htotal]
  exact fun h => not_mask_dvd_sumw_flipAt hn hwhole hi hsum h.2

theorem flipInput_of_ready {s : State} {x : Bits} {i : Nat} (hx : Ready s x) (hi : i < x.length) :
    flipInput i s = .next ((s.setInBuf (flipAt x i)).setInLen (flipAt x i).length) := by
  have hfits : fits s.params (flipAt x i).length = true := (length_flipAt x i).symm ▸ hx.2
  rw [flipInput, withInput_of_ready hx, if_pos hi]
  exact loadInput_next.mpr ⟨hfits, rfl⟩

/-- Settles O39: the total of the flipped frame is no multiple of the all-ones word. -/
theorem singleFlipsAreDetected : Obligations.SingleFlipsAreDetected := by
  intro s x n j hx hn hacc hfits hj
  obtain ⟨t, u, ht, hu, hready, hparams⟩ := exec_addsum_takeOutput hx hacc hfits
  have hlen : j < (x ++ checksum x n).length := by rwa [List.length_append, length_checksum]
  have hflipped : fits u.params (flipAt (x ++ checksum x n) j).length = true := by
    rw [length_flipAt]
    exact hready.2
  obtain ⟨v, hv, hst, hflag⟩ := exec_versum_of_ready (ready_loadInput hflipped) (hparams ▸ hacc)
  rw [versum_rejects_flipped x hn hj] at hflag
  exact ⟨t, u, _, v, ht, hu, flipInput_of_ready hready hlen, hv, hst, hflag⟩

end Sys2Proof.Proofs
end

section
/-! SUPPORT. `WIDTH_POLICY` (42_checksum.md R101): an accepted width leaves a checksum operation no error to end with. -/

namespace Sys2Proof.Proofs

open Sys2Proof.Machine

theorem status_of_accepted {w : Int} {r : Bits → Nat → Response} {sum : Bits → Nat → Nat} {s t : State}
    (hacc : Accepted s.params.widthPolicy w)
    (h : withInput s (fun x => withWidth w s fun n => respond (r x n) (s.setSum (sum x n))) = .next t) :
    t.st = stOk := by
  obtain ⟨x, -, hnext⟩ := withInput_next h
  obtain ⟨hbad, -⟩ | ⟨n, -, -, hresp⟩ := withWidth_next hnext
  · exact absurd hacc hbad
  · obtain ⟨-, rfl⟩ := respond_next.mp hresp
    rfl

theorem status_of_usesSum {i : Instr} {s t : State} (huse : usesSum i = true)
    (hwidth : ¬ WidthErrorCause s.params.widthPolicy s.cfg.defw i) (h : exec i s = .next t) : t.st = stOk := by
  match i, huse, hwidth, h with
  | .calcsum _, _, hw, h | .calcsumD, _, hw, h =>
    exact status_of_accepted (not_not.mp hw) ((calcsum.eq_def _ s).symm.trans h)
  | .addsum _, _, hw, h | .addsumD, _, hw, h =>
    exact status_of_accepted (not_not.mp hw) ((addsum.eq_def _ s).symm.trans h)
  | .versum _, _, hw, h | .versumD, _, hw, h =>
    exact status_of_accepted (not_not.mp hw) ((versum.eq_def _ s).symm.trans h)
  | .versums _, _, hw, h | .versumsD, _, hw, h =>
    exact status_of_accepted (not_not.mp hw) ((versums.eq_def _ s).symm.trans h)

/-- All eight forms with the width `n` are checksum operations that ask the policy for it. -/
theorem widthErrorCause_iff {i : Instr} {n : Nat} {defw : Int} (p : WidthPolicy)
    (hi : i = .calcsum n ∨ i = .addsum n ∨ i = .versum n ∨ i = .versums n ∨
      (defw = n ∧ (i = .calcsumD ∨ i = .addsumD ∨ i = .versumD ∨ i = .versumsD))) :
    usesSum i = true ∧ (WidthErrorCause p defw i ↔ ¬ Accepted p n) := by
  rcases hi with rfl | rfl | rfl | rfl | ⟨rfl, rfl | rfl | rfl | rfl⟩ <;> exact ⟨rfl, Iff.rfl⟩

theorem not_accepted_strict {n : Nat} (h8 : n ≠ 8) (h16 : n ≠ 16) (h32 : n ≠ 32) : ¬ Accepted .strict n := by
  rintro ⟨-, hpolicy | h⟩
  · cases hpolicy
  · omega

theorem accepted_generic {n : Nat} (hn : 0 < n) : Accepted .generic n := ⟨Int.natCast_pos.mpr hn, .inl rfl⟩

/-- Settles O30: the policy decides whether the width is an error cause, and without one the operation ends normally. -/
theorem widthPolicyDecidesOtherWidths : Obligations.WidthPolicyDecidesOtherWidths := by
  refine ⟨fun s x n hx hstrict _ h8 h16 h32 i hi => answers_widthError hx ?_, fun s x n hx hgeneric hn hfree i hi => ?_⟩
  · rw [(widthErrorCause_iff _ hi).2, hstrict]
    exact not_accepted_strict h8 h16 h32
  · obtain ⟨huse, hcause⟩ := widthErrorCause_iff s.params.widthPolicy hi
    obtain ⟨t, ht⟩ := exec_of_unbounded hfree i hx
    refine ⟨t, ht, status_of_usesSum huse ?_ ht⟩
    rw [hcause, not_not, hgeneric]
    exact accepted_generic hn

end Sys2Proof.Proofs
end
